-- ==== Sys2Proof/Word.lean ====
section
/-! DEFINITION. The words of the block: the data widths of the spec and the two enumerations its fields select from.
Every bit vector here is something the spec numbers bit by bit; arithmetic inside an evaluation is on integers
(00_scope.md section 5). -/

namespace Sys2Proof

/-- One 8-bit byte: a compressed sample (R6, R32) or a byte of host memory (R16). -/
abbrev Byte := BitVec 8

/-- One 16-bit word: a linear sample's pattern (R33), the operand `din` (R34) or the output `dout` (R37). -/
abbrev Word16 := BitVec 16

/-- The 3-bit operation descriptor `desc = {fmt, op}` (R34). -/
abbrev Desc := BitVec 3

/-- The 19-bit transaction word `{fmt, op, din}`, the input of one evaluation (R34). -/
abbrev TW := BitVec 19

/-- The 18-bit result word `{status, dout}`, the output of one evaluation (R37). -/
abbrev RW := BitVec 18

/-- The format selector: the two companding laws the `fmt` field chooses between (R36). -/
inductive Format where
  | ulaw
  | alaw
deriving DecidableEq, Repr

/-- The operation the `op` field selects (R35). -/
inductive Operation where
  | enc
  | dec
  | seg
  | reserved
deriving DecidableEq, Repr

end Sys2Proof
end

