-- ==== Sys2Proof/Config.lean ====
section
/-! DEFINITION. What an implementation fixes, and the free values. `Cfg` is the constant record of R4 (its normative
value `cfgDoc` stands in Machine/Constants.lean, where a later repair may mend it), `Platform` the open parameters
of R6. The opaque constants are the values the spec leaves open: nothing can evaluate them, so a claim holds for
every value they could have. -/

namespace Sys2Proof

/-- The block's constants (R4). `segTable` and `clip` are integers because R5 makes their sign a check; `ovfCode` is a
code word, so it is a byte (log entry 4); the remaining fields are amounts and are natural numbers (log entry 4). -/
structure Cfg where
  /-- `PRE_SHIFT`: arithmetic right shift applied to the linear sample. -/
  preShift : Nat
  /-- `POS_MASK`: sign mask for a non-negative shifted sample. -/
  posMask : Nat
  /-- `NEG_MASK`: sign mask for a negative shifted sample. -/
  negMask : Nat
  /-- `CLIP`: largest magnitude kept before biasing. -/
  clip : Int
  /-- `ENC_BIAS`: bias added to the clamped magnitude. -/
  encBias : Nat
  /-- `SEG_TABLE[0..7]`: segment upper boundaries, the contents of the segment ROM (R11). -/
  segTable : Vector Int 8
  /-- `SEG_COUNT`: number of segments, and the sentinel index. -/
  segCount : Nat
  /-- `OVF_CODE`: code XORed with the sign mask when the search is exhausted. -/
  ovfCode : Byte
  /-- `MANT_OFF`: offset added to the segment index to give the mantissa shift. -/
  mantOff : Nat
  /-- `MANT_BITS`: width of the mantissa field. -/
  mantBits : Nat
  /-- `DEC_SCALE`: left shift applied to the mantissa on decode. -/
  decScale : Nat
  /-- `DEC_BIAS`: bias added on decode and removed at the sign step. -/
  decBias : Nat
deriving DecidableEq, Repr

/-- `HOST_BYTE_ORDER`: the order of a linear sample's two bytes in host memory (R6, R17). -/
inductive ByteOrder where
  | little
  | big
deriving DecidableEq, Repr

/-- `CORE_ATTACH`: how and where a platform attaches the block (R6, R31); the three ways are R31's own examples. -/
inductive Attach where
  | busDevice (address : Nat)
  | coprocessorPort
  | functionalUnit
deriving DecidableEq, Repr

/-- The open implementation parameters of R6, fixed for one machine. -/
structure Platform where
  /-- `HOST_BYTE_ORDER`. -/
  byteOrder : ByteOrder
  /-- `HOST_ADDR_BITS`: host addresses are the natural numbers below `2 ^ addrBits` (R16). -/
  addrBits : Nat
  /-- `EVAL_LATENCY` in cycles (R99). -/
  evalLatency : Nat
  /-- `CORE_ATTACH`. -/
  attach : Attach
deriving DecidableEq, Repr

/-- FREE VALUE (log entry 5): `s16(y)` for a `y` outside [-32768, 32767], where 00_scope.md section 5 gives the notation no
value. No run under `cfgDoc` reaches it (R71). A function of `y`, so that equal transaction words still give equal
result words (R13). -/
opaque Config.freeS16 : Int → Word16

/-- FREE VALUE (log entry 6): the n-th drawn linear sample, for a `BUF_ENC` sample another agent writes during the call
(R28: "any 16-bit value"). -/
opaque Config.freeSample : Nat → Word16

/-- FREE VALUE (log entry 6): the n-th drawn code, for a `BUF_DEC` byte another agent writes during the call
(R28: "any byte"). -/
opaque Config.freeByte : Nat → Byte

end Sys2Proof
end

