-- ==== Sys2Proof/Syntax.lean ====
section
/-! DEFINITION. The instructions of the block: one constructor per row of spec/opcode_table.json, in the table's order.
An instruction is one transaction. Every row carries the whole 16-bit operand `din`, also where the operation
ignores some of its bits (R41), so that an instruction and its transaction word determine each other. -/

namespace Sys2Proof

/-- One transaction of the block (R39): the descriptor row, and the operand `din`. -/
inductive Instr where
  /-- `ENC.U`, descriptor 000: µ-law encode of a linear sample (R51). -/
  | ulawEnc (din : Word16)
  /-- `DEC.U`, descriptor 001: µ-law decode of a code (R66). -/
  | ulawDec (din : Word16)
  /-- `SEG`, descriptor 010: segment search on a supplied value (R45). -/
  | segSearch (din : Word16)
  /-- Reserved descriptor 011 (R78). -/
  | reserved011 (din : Word16)
  /-- `ENC.A`, descriptor 100: A-law encode request (R76). -/
  | alawEnc (din : Word16)
  /-- `DEC.A`, descriptor 101: A-law decode request (R77). -/
  | alawDec (din : Word16)
  /-- Reserved descriptor 110 (R78). -/
  | reserved110 (din : Word16)
  /-- Reserved descriptor 111 (R78). -/
  | reserved111 (din : Word16)
deriving DecidableEq, Repr

/-- The operand of a transaction: `TW[15:0]` (R34). -/
def Instr.din : Instr → Word16
  | .ulawEnc d => d
  | .ulawDec d => d
  | .segSearch d => d
  | .reserved011 d => d
  | .alawEnc d => d
  | .alawDec d => d
  | .reserved110 d => d
  | .reserved111 d => d

end Sys2Proof
end

