-- ==== Sys2Proof/WellFormed.lean ====
section
/-! DEFINITION. What is well formed: a transaction (all are, R40), a constant record (R5). The operand ranges of the
assembler notation (R43) are checked in Machine/Assembler.lean. -/

namespace Sys2Proof

/-- R40 and R42: each of the 2^19 transaction words is a transaction, with no reserved operand, so no check stands here:
the operand's width is in its type. -/
def Instr.wf : Instr → Bool
  | .ulawEnc _ => true
  | .ulawDec _ => true
  | .segSearch _ => true
  | .reserved011 _ => true
  | .alawEnc _ => true
  | .alawDec _ => true
  | .reserved110 _ => true
  | .reserved111 _ => true

/-- R5: an entry is a non-negative integer that fits a 16-bit signed word. -/
def Cfg.entryFits (t : Int) : Bool := decide (0 ≤ t) && decide (t ≤ 32767)

/-- R5: the boundaries are non-decreasing, each compared with the next. -/
def Cfg.nonDecreasing : List Int → Bool
  | a :: b :: rest => decide (a ≤ b) && Cfg.nonDecreasing (b :: rest)
  | [_] => true
  | [] => true

/-- R5: the predicate every configuration record must meet. The model refuses a record that fails it. -/
def Cfg.wf (cfg : Cfg) : Bool :=
  cfg.segTable.toList.all Cfg.entryFits
    && Cfg.nonDecreasing cfg.segTable.toList
    && decide (cfg.segCount = 8)
    && decide (cfg.mantBits = 4)
    && decide (0 ≤ cfg.clip)
    && decide (cfg.posMask < 256)
    && decide (cfg.negMask < 256)

end Sys2Proof
end

