-- ==== Sys2Proof/Decode.lean ====
section
/-! DEFINITION. The transaction word's fields, the operation map of R39, the decoder (total: R40) and the encoder.
The decoder reads the word's descriptor; the encoder is written from the same map. -/

namespace Sys2Proof

/-- One row of the operation map (R39): `match` and `mask` as spec/opcode_table.json gives them. -/
structure OpcodeRow where
  mnemonic : String
  mask : TW
  pattern : TW
deriving DecidableEq, Repr

/-- R39: the whole opcode map, in the table's order. -/
def opcodeTable : List OpcodeRow :=
  [ ⟨"ULAW_ENC", 0x70000#19, 0x00000#19⟩,
    ⟨"ULAW_DEC", 0x70000#19, 0x10000#19⟩,
    ⟨"SEG_SEARCH", 0x70000#19, 0x20000#19⟩,
    ⟨"RESERVED_011", 0x70000#19, 0x30000#19⟩,
    ⟨"ALAW_ENC", 0x70000#19, 0x40000#19⟩,
    ⟨"ALAW_DEC", 0x70000#19, 0x50000#19⟩,
    ⟨"RESERVED_110", 0x70000#19, 0x60000#19⟩,
    ⟨"RESERVED_111", 0x70000#19, 0x70000#19⟩ ]

/-- A transaction word falls in a row when it agrees with the row's pattern under the row's mask (R39). -/
def OpcodeRow.accepts (r : OpcodeRow) (w : TW) : Bool := decide (w &&& r.mask = r.pattern)

/-- The row of an instruction. -/
def Instr.row : Instr → OpcodeRow
  | .ulawEnc _ => ⟨"ULAW_ENC", 0x70000#19, 0x00000#19⟩
  | .ulawDec _ => ⟨"ULAW_DEC", 0x70000#19, 0x10000#19⟩
  | .segSearch _ => ⟨"SEG_SEARCH", 0x70000#19, 0x20000#19⟩
  | .reserved011 _ => ⟨"RESERVED_011", 0x70000#19, 0x30000#19⟩
  | .alawEnc _ => ⟨"ALAW_ENC", 0x70000#19, 0x40000#19⟩
  | .alawDec _ => ⟨"ALAW_DEC", 0x70000#19, 0x50000#19⟩
  | .reserved110 _ => ⟨"RESERVED_110", 0x70000#19, 0x60000#19⟩
  | .reserved111 _ => ⟨"RESERVED_111", 0x70000#19, 0x70000#19⟩

/-- `TW[15:0]` (R34). -/
def twDin (w : TW) : Word16 := w.extractLsb' 0 16

/-- `desc = TW[18:16]` (R34). -/
def twDesc (w : TW) : Desc := w.extractLsb' 16 3

/-- `TW[18]`, the format selector: 0 is µ-law and 1 is A-law (R36). -/
def twFormat (w : TW) : Format := if w.extractLsb' 18 1 = 0b0#1 then .ulaw else .alaw

/-- `TW[17:16]`, the operation (R35). -/
def twOperation (w : TW) : Operation :=
  if w.extractLsb' 16 2 = 0b00#2 then .enc
  else if w.extractLsb' 16 2 = 0b01#2 then .dec
  else if w.extractLsb' 16 2 = 0b10#2 then .seg
  else .reserved

/-- The `fmt` bit of a format (R36). -/
def Format.bit : Format → BitVec 1
  | .ulaw => 0b0#1
  | .alaw => 0b1#1

/-- The `op` bits of an operation (R35). -/
def Operation.bits : Operation → BitVec 2
  | .enc => 0b00#2
  | .dec => 0b01#2
  | .seg => 0b10#2
  | .reserved => 0b11#2

/-- R34: `{fmt, op}`. -/
def mkDesc (f : Format) (o : Operation) : Desc := f.bit ++ o.bits

/-- R34: the transaction word `{desc, din}`. -/
def mkTW (d : Desc) (din : Word16) : TW := d ++ din

/-- R39: the row a descriptor selects, holding the operand. All eight descriptors have a row (R40). -/
def decodeDesc (d : Desc) (din : Word16) : Instr :=
  match d.toFin with
  | 0 => .ulawEnc din
  | 1 => .ulawDec din
  | 2 => .segSearch din
  | 3 => .reserved011 din
  | 4 => .alawEnc din
  | 5 => .alawDec din
  | 6 => .reserved110 din
  | 7 => .reserved111 din

/-- The decoder: total on transaction words (R40). -/
def decode (w : TW) : Instr := decodeDesc (twDesc w) (twDin w)

/-- Why a number is no transaction word. -/
inductive DecodeError where
  /-- It has a bit above bit 18; every transaction has the one fixed length of 19 bits (R34, R42). -/
  | widerThanTransactionWord
deriving DecidableEq, Repr

/-- The decoder on any number: a transaction word, or a rejection by name. -/
def decodeNat (w : Nat) : Except DecodeError Instr :=
  if w < 2 ^ 19 then .ok (decode (BitVec.ofNat 19 w)) else .error .widerThanTransactionWord

/-- A list of bytes as the number the opcode table's numbering gives it: the first byte holds bits 7 to 0. -/
def natOfBytes : List Byte → Nat
  | [] => 0
  | b :: bs => b.toNat + 256 * natOfBytes bs

/-- The decoder on any bytes (numbered as the opcode table numbers bits). The block itself has no byte form of a
transaction word: it samples all 19 bits at once (R34). -/
def decodeBytes (bs : List Byte) : Except DecodeError Instr := decodeNat (natOfBytes bs)

/-- The descriptor of an instruction (R39). -/
def Instr.desc : Instr → Desc
  | .ulawEnc _ => 0b000#3
  | .ulawDec _ => 0b001#3
  | .segSearch _ => 0b010#3
  | .reserved011 _ => 0b011#3
  | .alawEnc _ => 0b100#3
  | .alawDec _ => 0b101#3
  | .reserved110 _ => 0b110#3
  | .reserved111 _ => 0b111#3

/-- The encoder: the transaction word of an instruction (R34, R39). -/
def encode (i : Instr) : TW := mkTW i.desc i.din

/-- The host's question: the instruction the decoder reads from the bits `w` of a row of `nbits` bits (bits at and above
`nbits` are 0); none where `w` is no transaction word. -/
def decodeTableWord (nbits w : Nat) : Option Instr :=
  match decodeNat (w % 2 ^ nbits) with
  | .ok i => some i
  | .error _ => none

end Sys2Proof
end

