-- ==== Sys2Proof/Machine/Constants.lean ====
section
/-! DEFINITION. The constant records: the normative `cfgDoc` (R4), the general-knowledge `cfgRef` (93, G1), and the
platform parameters the model resets to. -/

namespace Sys2Proof.Machine

/-- R4, R11: `CFG_DOC`, the literals the source states. Normative (92 D8). -/
def cfgDoc : Cfg where
  preShift := 2
  posMask := 0xFF
  negMask := 0x7F
  clip := 8158
  encBias := 33
  segTable := #v[255, 511, 1023, 2047, 4095, 8191, 16383, 32767]
  segCount := 8
  ovfCode := 0x7F#8
  mantOff := 3
  mantBits := 4
  decScale := 3
  decBias := 33

/-- 93_implementation_defined.md G1: `CFG_REF`, another well-formed record (R5 names it). No rule depends on it; the model
runs under it when a state holds it. -/
def cfgRef : Cfg where
  preShift := 2
  posMask := 0xFF
  negMask := 0x7F
  clip := 8159
  encBias := 33
  segTable := #v[63, 127, 255, 511, 1023, 2047, 4095, 8191]
  segCount := 8
  ovfCode := 0x7F#8
  mantOff := 1
  mantBits := 4
  decScale := 3
  decBias := 132

/-- The open parameters at reset. DESIGN CHOICE (log entry 3): little-endian host (the order 95_test_vectors.md takes), 32-bit
addresses, latency 0, a functional unit. No step changes them and no claim rests on these values. -/
def platformDefault : Platform where
  byteOrder := .little
  addrBits := 32
  evalLatency := 0
  attach := .functionalUnit

end Sys2Proof.Machine
end

