-- ==== Sys2Proof/Machine/State.lean ====
section
/-! DEFINITION. The machine's state, its reasons to stop, and reset. The block itself holds nothing between evaluations (R7 to
R14): what stands here is its constants, its two output ports, and the host that issues evaluations (R14: a model
of such a host keeps the sequence of evaluations and a sticky record of statuses itself). All of it is plain data. -/

namespace Sys2Proof.Machine

/-- R80: the statuses an evaluation reports. The fourth code of the 2-bit port is never produced. -/
inductive Status where
  | ok
  | unsupportedFormat
  | illegalOp
deriving DecidableEq, Repr

/-- R88: the host's never-cleared record of every non-OK status, a set of two. -/
structure StatusRecord where
  unsupportedFormat : Bool
  illegalOp : Bool
deriving DecidableEq, Repr

/-- One evaluation's outcome before packing into a result word (R37). -/
structure EvalResult where
  status : Status
  dout : Word16
deriving DecidableEq, Repr

/-- A run of bytes `[base, base + size)` of host memory (R16). -/
structure Region where
  base : Nat
  size : Nat
deriving DecidableEq, Repr

/-- One byte access another agent makes while a buffer procedure runs (R28). -/
inductive Access where
  | read (a : Nat)
  | write (a : Nat) (b : Byte)
deriving DecidableEq, Repr

/-- A call of a host buffer procedure (R21, R22): its arguments, and what other agents do to memory while it runs (R28). -/
structure BufCall where
  inBase : Nat
  len : Nat
  outBase : Nat
  fmt : Format
  others : List Access
deriving DecidableEq, Repr

/-- What the outside world does to the machine: the host's next action. -/
inductive HostCmd where
  /-- Present a transaction word and let the evaluation complete (R34). -/
  | eval (tw : TW)
  /-- Present the transaction word `{desc, dout}` built from the latest result's `dout` (R97). -/
  | chain (desc : Desc)
  /-- Read the output ports (R94). -/
  | readPorts
  /-- Present a transaction word and read the output ports while its evaluation is in flight (R94). -/
  | readInFlight (tw : TW)
  /-- The host, or another agent, stores one byte of host memory between calls (R16). -/
  | store (a : Nat) (b : Byte)
  /-- The caller comes to own a region of host memory (R25, R96). -/
  | own (r : Region)
  /-- Call `BUF_ENC` (R21). -/
  | bufEnc (c : BufCall)
  /-- Call `BUF_DEC` (R22). -/
  | bufDec (c : BufCall)
deriving DecidableEq, Repr

/-- Host memory: (address, byte) pairs, addresses strictly rising, no entry equal to what an unlisted address reads as
(`Memory.wf`, Machine/Ops.lean). -/
abbrev Memory := List Host.Cell

/-- Why a step stops with a fault. -/
inductive Fault where
  /-- Raised by `readPorts` and `chain` before the first evaluation has completed: the ports have no value, and "a model that
  reads them before the first evaluation completes faults" (R94). Safe. -/
  | outputsNoValue
  /-- Raised by `readInFlight` when `EVAL_LATENCY > 0`: "the outputs belong to no evaluation" (R94). Safe. -/
  | outputsInFlight
  /-- Raised by a port read that sees status 0b11, which is never produced: "a model that sees it has a bug, and treats it as
  fault" (93 I17, R80). No reachable state raises it. Safe. -/
  | statusNeverProduced
  /-- Raised by `store`, `own` and a buffer call's other agents for an address at or above `2 ^ HOST_ADDR_BITS`, which does not
  exist (R16; that it faults is log entries 10 and 18). Safe. -/
  | noSuchAddress
deriving DecidableEq, Repr

/-- Why the model gives a step no meaning. -/
inductive Refusal where
  /-- An arm of `exec` with no meaning yet. None is left. Safe. -/
  | notModelled (mnemonic : String)
  /-- R5: the machine's constant record is not well formed; "a record that fails it is refused". Raised by every step, and by every
  evaluation and host action, before anything else. Safe. -/
  | cfgIllFormed
  /-- R24: `refuse(BufferOverlap)`, raised by a buffer call whose regions share a byte. Safe. -/
  | bufferOverlap
  /-- R25: `refuse(BufferSize)`, raised by a buffer call with a region not wholly inside memory the caller owns. Safe. -/
  | bufferSize
  /-- R28: `refuse(OutputRace)`, raised by a buffer call during which another agent touches the output region. Safe. -/
  | outputRace
deriving DecidableEq, Repr

/-- The whole machine. Only `out` belongs to the block's ports; `cfg` and `plat` are fixed when it is built and no step
writes them; the rest is the host's. -/
structure State where
  /-- The block's constants, with the segment ROM's contents (R4, R10, R11). -/
  cfg : Cfg
  /-- The open parameters (R6). -/
  plat : Platform
  /-- The output ports `{status, dout}`: none until an evaluation has completed (R94). -/
  out : Option RW
  /-- The host's sticky record of non-OK statuses (R88). -/
  statusRecord : StatusRecord
  /-- The host's pending actions, next first (R14). -/
  cmds : List HostCmd
  /-- Host memory (R16). -/
  mem : Memory
  /-- The memory the caller owns (R25); one set for every caller (log entry 20). -/
  owned : List Region
  /-- The result word the host read last from the ports; none before a read (R94, R98). -/
  lastRead : Option RW
  /-- What the latest buffer procedure returned; none before a call (R21, R22). -/
  ret : Option Status
  /-- The model's own: how many free samples have been drawn (R28, log entry 6). -/
  draws : Nat
deriving DecidableEq, Repr

/-- R93 to R96: reset gives the block no value; the ports have none, the record is empty (95 L3), the ROM holds its
constants. The open parameters' values are log entry 3. -/
def State.reset : State where
  cfg := cfgDoc
  plat := platformDefault
  out := none
  statusRecord := ⟨false, false⟩
  cmds := []
  mem := []
  owned := []
  lastRead := none
  ret := none
  draws := 0

end Sys2Proof.Machine
end

