-- ==== Sys2Proof/Machine/Flags.lean ====
section
/-! DEFINITION. The status codes (R80), the result word's packing (R37), and the two places a status goes: the host's sticky
record (R88) and a buffer procedure's accumulated status (R21, R22). -/

namespace Sys2Proof.Machine

/-- R80: the 2-bit code of a status. -/
def Status.code : Status → BitVec 2
  | .ok => 0b00#2
  | .unsupportedFormat => 0b01#2
  | .illegalOp => 0b10#2

/-- R80: the status of a 2-bit code; none for 0b11, which is never produced. -/
def Status.ofCode (b : BitVec 2) : Option Status :=
  if b = 0b00#2 then some .ok
  else if b = 0b01#2 then some .unsupportedFormat
  else if b = 0b10#2 then some .illegalOp
  else none

/-- R37: `RW = {status, dout}`. -/
def EvalResult.pack (r : EvalResult) : RW := r.status.code ++ r.dout

/-- `RW[17:16]` (R37). -/
def rwStatus (w : RW) : BitVec 2 := w.extractLsb' 16 2

/-- `RW[15:0]` (R37). -/
def rwDout (w : RW) : Word16 := w.extractLsb' 0 16

/-- An operation that ran: status OK, with its result on `dout` (R80). -/
def EvalResult.okWith (d : Word16) : EvalResult := ⟨.ok, d⟩

/-- R87: `raise <Status>` ends the evaluation with `dout <- 0x0000` and `status <- <Status>`, and nothing else. -/
def EvalResult.raised (st : Status) : EvalResult := ⟨st, 0x0000#16⟩

/-- R88: the record after one more status; it is never cleared. -/
def StatusRecord.note (rec : StatusRecord) : Status → StatusRecord
  | .ok => rec
  | .unsupportedFormat => ⟨true, rec.illegalOp⟩
  | .illegalOp => ⟨rec.unsupportedFormat, true⟩

/-- The record holds no status: the premise R88 gives a claim that needs valid data. -/
def StatusRecord.clean (rec : StatusRecord) : Bool := !rec.unsupportedFormat && !rec.illegalOp

/-- R21, R22: `if acc = OK then acc <- st`. -/
def accumulate (acc st : Status) : Status := if acc = .ok then st else acc

end Sys2Proof.Machine
end

