-- ==== Sys2Proof/Machine/Operands.lean ====
section
/-! DEFINITION. How an operation reads `din` (R41), the code word's fields (R32), and the integer notation of 00_scope.md
section 5. -/

namespace Sys2Proof.Machine

/-- R41, R33: `x = sext_16(din)`, the linear sample of a 16-bit pattern. -/
def sext16 (din : Word16) : Int := din.toInt

/-- R41, R45: `v = zext_16(din)`, an unsigned value in [0, 65535]. -/
def zext16 (din : Word16) : Int := (din.toNat : Int)

/-- R41, R66: `c = din[7:0]`; `din[15:8]` is ignored. -/
def codeOfDin (din : Word16) : Byte := din.extractLsb' 0 8

/-- `asr(v, n) = floor(v / 2^n)`, toward minus infinity (00_scope.md section 5, R52). -/
def asr (v : Int) (n : Nat) : Int := v / (2 ^ n : Nat)

/-- `s16(v)`: the two's-complement pattern of an integer in [-32768, 32767] (00_scope.md section 5). Outside that range the
notation has no value, and the pattern is a free value (log entry 5). -/
def s16 (v : Int) : Word16 := if -32768 ≤ v ∧ v ≤ 32767 then BitVec.ofInt 16 v else Config.freeS16 v

/-- `not8(c) = 255 - c`: the inverted code `u` on which the fields are defined (R32, R67). -/
def not8 (c : Byte) : Byte := ~~~c

/-- `S = u[7]` for the code `c` (R32, R67). -/
def codeSign (c : Byte) : Bool := (not8 c).getLsbD 7

/-- `E = u[6:4]` for the code `c` (R32, R67). -/
def codeSegment (c : Byte) : Nat := ((not8 c).extractLsb' 4 3).toNat

/-- `Q = u[3:0]` for the code `c` (R32, R67). -/
def codeMantissa (c : Byte) : Nat := ((not8 c).extractLsb' 0 4).toNat

end Sys2Proof.Machine
end

