-- ==== Sys2Proof/Machine/Ops.lean ====
section
/-! DEFINITION. The shared operations: host memory byte by byte and sample by sample (R16 to R18), ownership (R25), driving the
output ports (R37), and raising a status, which is all the exception taking this block has (R87). There is no return
from an exception to model: "trap return and nesting do not exist" (R88). -/

namespace Sys2Proof.Machine

/-- What a byte of host memory that nothing has written reads as. DESIGN CHOICE (log entry 7): R16 says each address holds one
byte and gives no first contents. -/
def Memory.unlisted : Byte := 0x00#8

/-- The byte at an address (R16). -/
def Memory.read : Memory → Nat → Byte
  | [], _ => Memory.unlisted
  | (k, v) :: m, a => if a = k then v else Memory.read m a

/-- One byte stored, keeping the canonical form. -/
def Memory.write : Memory → Nat → Byte → Memory
  | [], a, b => if b = Memory.unlisted then [] else [(a, b)]
  | (k, v) :: m, a, b =>
    if a < k then (if b = Memory.unlisted then (k, v) :: m else (a, b) :: (k, v) :: m)
    else if a = k then (if b = Memory.unlisted then m else (a, b) :: m)
    else (k, v) :: Memory.write m a b

/-- The canonical form: addresses strictly rising, no entry that an unlisted address would read as. -/
def Memory.wf : Memory → Bool
  | [] => true
  | (k, v) :: m => decide (v ≠ Memory.unlisted) && m.all (fun c => decide (k < c.1)) && Memory.wf m

/-- R17: `MemRead(a, 2)`, two byte reads joined in the host's byte order, at any address (R18). -/
def Memory.read16 (o : ByteOrder) (m : Memory) (a : Nat) : Word16 :=
  match o with
  | .little => Memory.read m (a + 1) ++ Memory.read m a
  | .big => Memory.read m a ++ Memory.read m (a + 1)

/-- R17: `MemWrite(a, 2, v)`, two byte writes in the host's byte order, at any address (R18). -/
def Memory.write16 (o : ByteOrder) (m : Memory) (a : Nat) (v : Word16) : Memory :=
  match o with
  | .little => Memory.write (Memory.write m a (v.extractLsb' 0 8)) (a + 1) (v.extractLsb' 8 8)
  | .big => Memory.write (Memory.write m a (v.extractLsb' 8 8)) (a + 1) (v.extractLsb' 0 8)

/-- An address lies in a region (R16). -/
def Region.has (r : Region) (a : Nat) : Bool := decide (r.base ≤ a) && decide (a < r.base + r.size)

/-- Two regions share a byte (R24). -/
def Region.overlaps (r q : Region) : Bool :=
  decide (0 < r.size) && decide (0 < q.size) && decide (r.base < q.base + q.size) && decide (q.base < r.base + r.size)

/-- R16: addresses are the natural numbers below `2 ^ HOST_ADDR_BITS`. -/
def State.addressExists (s : State) (a : Nat) : Bool := decide (a < 2 ^ s.plat.addrBits)

/-- R25: the caller owns the byte at an address. The spec does not say how several callers' memories relate (R28): one owned set
serves every caller (DESIGN CHOICE, log entry 20). -/
def State.owns (s : State) (a : Nat) : Bool := s.addressExists a && s.owned.any (fun r => r.has a)

/-- R25: a region lies wholly inside memory the caller owns: it owns every byte of it. The spec does not say whether a region of no
bytes with an unowned start address is missing; here it is not, so a call of zero samples passes wherever its buffers
start (DESIGN CHOICE, log entry 21). -/
def State.ownsRegion (s : State) (r : Region) : Bool :=
  (List.range r.size).all (fun k => s.owns (r.base + k))

/-- The address of an access (R28). -/
def Access.addr : Access → Nat
  | .read a => a
  | .write a _ => a

/-- The access writes a byte of the region (R28). -/
def Access.writesIn (r : Region) : Access → Bool
  | .read _ => false
  | .write a _ => r.has a

/-- Another agent's access carried out on memory: a read changes nothing (R19), a write stores its byte. -/
def Access.apply (m : Memory) : Access → Memory
  | .read _ => m
  | .write a b => Memory.write m a b

/-- R37, R88: one evaluation's outcome driven on the ports and noted by the host. -/
def State.drive (s : State) (r : EvalResult) : State :=
  { s with out := some r.pack, statusRecord := s.statusRecord.note r.status }

/-- R5: the constant record is checked first, and a machine whose record is not well formed is refused, whatever it would have
done (93, I20). -/
def State.checked (s : State) (o : Host.Outcome State Fault Refusal) : Host.Outcome State Fault Refusal :=
  if s.cfg.wf then o else .refused .cfgIllFormed

/-- R37: an evaluation completes with its result, under a record that R5's check passes. -/
def State.complete (s : State) (r : EvalResult) : Host.Outcome State Fault Refusal := s.checked (.next (s.drive r))

/-- R87: taking an exception. `dout` becomes 0x0000 and `status` the code; no other state is saved or changed, and control goes
nowhere. -/
def State.raise (s : State) (st : Status) : Host.Outcome State Fault Refusal := s.complete (.raised st)

end Sys2Proof.Machine
end

