-- ==== Sys2Proof/Machine/Segment.lean ====
section
/-! DEFINITION. The segment search (R45 to R50): the function `find_segment`, the hardware structures that compute it, and
SEG_SEARCH. -/

namespace Sys2Proof.Machine

/-- R46: the least index whose boundary is at or above `v`, or the number of boundaries when there is none. -/
def leastIndex (v : Int) : List Int → Nat
  | [] => 0
  | t :: ts => if v ≤ t then 0 else leastIndex v ts + 1

/-- R46: `find_segment(v)` over the segment table; 8 when `v` exceeds every boundary. -/
def findSegment (cfg : Cfg) (v : Int) : Nat := leastIndex v cfg.segTable.toList

/-- R11, R15: the 16-bit word at one 3-bit entry number of the segment ROM. -/
def romRead (cfg : Cfg) (i : BitVec 3) : Word16 := BitVec.ofInt 16 (cfg.segTable[i.toNat]'i.isLt)

/-- R47: `g[i]`, one comparator against one ROM entry. -/
def comparator (cfg : Cfg) (v : Int) (i : BitVec 3) : Bool := decide ((romRead cfg i).toInt < v)

/-- R47: the comparator tree: eight comparators in parallel, then a population count. -/
def comparatorTree (cfg : Cfg) (v : Int) : Nat :=
  (comparator cfg v 0#3).toNat + (comparator cfg v 1#3).toNat + (comparator cfg v 2#3).toNat
    + (comparator cfg v 3#3).toNat + (comparator cfg v 4#3).toNat + (comparator cfg v 5#3).toNat
    + (comparator cfg v 6#3).toNat + (comparator cfg v 7#3).toNat

/-- R47: the 4-level binary comparison tree, another conforming structure. -/
def binaryTree (cfg : Cfg) (v : Int) : Nat :=
  if comparator cfg v 3#3 then
    if comparator cfg v 5#3 then
      if comparator cfg v 6#3 then (if comparator cfg v 7#3 then 8 else 7) else 6
    else (if comparator cfg v 4#3 then 5 else 4)
  else if comparator cfg v 1#3 then (if comparator cfg v 2#3 then 3 else 2)
  else (if comparator cfg v 0#3 then 1 else 0)

/-- R45: `dout <- zext_16(seg)`, `status <- OK`. -/
def segSearchResult (cfg : Cfg) (din : Word16) : EvalResult :=
  .okWith (BitVec.ofNat 16 (findSegment cfg (zext16 din)))

/-- SEG_SEARCH (R45). -/
def execSegSearch (din : Word16) (s : State) : Host.Outcome State Fault Refusal :=
  s.complete (segSearchResult s.cfg din)

end Sys2Proof.Machine
end

