-- ==== Sys2Proof/Machine/Encode.lean ====
section
/-! DEFINITION. The µ-law encode path (R51 to R60): the sign-magnitude quantizer front end, the segment lookup, and the code
composer. -/

namespace Sys2Proof.Machine

/-- R52, step 1: `s = asr(x, PRE_SHIFT)`. -/
def preShifted (cfg : Cfg) (x : Int) : Int := asr x cfg.preShift

/-- R53, step 2: the sign mask; zero takes the positive branch. -/
def signMask (cfg : Cfg) (s : Int) : Byte := BitVec.ofNat 8 (if s < 0 then cfg.negMask else cfg.posMask)

/-- R54, step 2: the magnitude. -/
def magnitude (s : Int) : Int := if s < 0 then -s else s

/-- R55, step 3: the clamp. -/
def clamp (cfg : Cfg) (mag : Int) : Int := if cfg.clip < mag then cfg.clip else mag

/-- R56, step 4: the biased magnitude `b` of a sample. -/
def biased (cfg : Cfg) (x : Int) : Int := clamp cfg (magnitude (preShifted cfg x)) + cfg.encBias

/-- R59, step 7: `q = (b >> (seg + MANT_OFF)) & 0xF`, the mask being MANT_BITS ones. -/
def mantissa (cfg : Cfg) (b : Int) (seg : Nat) : Nat :=
  (b.toNat >>> (seg + cfg.mantOff)) &&& (2 ^ cfg.mantBits - 1)

/-- R59, step 7: the composed byte `k = (seg << 4) | q`. -/
def composed (cfg : Cfg) (b : Int) (seg : Nat) : Byte :=
  BitVec.ofNat 8 ((seg <<< cfg.mantBits) ||| mantissa cfg b seg)

/-- R57, R58, R60, steps 5, 6 and 8: the code of a biased magnitude, given the sign mask. -/
def codeOfBiased (cfg : Cfg) (b : Int) (mask : Byte) : Byte :=
  if cfg.segCount ≤ findSegment cfg b then cfg.ovfCode ^^^ mask
  else composed cfg b (findSegment cfg b) ^^^ mask

/-- R51: the 8-bit code of a linear sample (the source's `linear_to_ulaw`). -/
def ulawCode (cfg : Cfg) (x : Int) : Byte := codeOfBiased cfg (biased cfg x) (signMask cfg (preShifted cfg x))

/-- R51, R38: `dout <- {0x00, c}`, `status <- OK`. -/
def ulawEncResult (cfg : Cfg) (din : Word16) : EvalResult := .okWith (0x00#8 ++ ulawCode cfg (sext16 din))

/-- ULAW_ENC (R51). -/
def execUlawEnc (din : Word16) (s : State) : Host.Outcome State Fault Refusal :=
  s.complete (ulawEncResult s.cfg din)

end Sys2Proof.Machine
end

