-- ==== Sys2Proof/Machine/Expand.lean ====
section
/-! DEFINITION. The µ-law decode path, the expander (R66 to R71). -/

namespace Sys2Proof.Machine

/-- R68, step 2: `t = (Q << DEC_SCALE) + DEC_BIAS`. -/
def scaledMantissa (cfg : Cfg) (q : Nat) : Nat := (q <<< cfg.decScale) + cfg.decBias

/-- R69, step 3: `t << E`. -/
def expanded (cfg : Cfg) (c : Byte) : Nat := scaledMantissa cfg (codeMantissa c) <<< codeSegment c

/-- R70, step 4: the sign application; the linear value of a code (the source's `ulaw_to_linear`). -/
def ulawLinear (cfg : Cfg) (c : Byte) : Int :=
  if codeSign c then (cfg.decBias : Int) - expanded cfg c else (expanded cfg c : Int) - cfg.decBias

/-- R66, R71: `dout <- s16(y)`, `status <- OK`. -/
def ulawDecResult (cfg : Cfg) (din : Word16) : EvalResult := .okWith (s16 (ulawLinear cfg (codeOfDin din)))

/-- ULAW_DEC (R66). -/
def execUlawDec (din : Word16) (s : State) : Host.Outcome State Fault Refusal :=
  s.complete (ulawDecResult s.cfg din)

end Sys2Proof.Machine
end

