-- ==== Sys2Proof/Machine/Format.lean ====
section
/-! DEFINITION. Format dispatch (R75), the A-law path (R76, R77) and the reserved descriptors (R78). Every one of these runs: it
raises its status (R87). -/

namespace Sys2Proof.Machine

/-- R76: UNSUPPORTED_FORMAT, whatever `din` is. -/
def alawEncResult (_din : Word16) : EvalResult := .raised .unsupportedFormat

/-- R77: UNSUPPORTED_FORMAT, whatever `din` is. -/
def alawDecResult (_din : Word16) : EvalResult := .raised .unsupportedFormat

/-- R78: ILLEGAL_OP for descriptor 011, whatever `din` is. -/
def reserved011Result (_din : Word16) : EvalResult := .raised .illegalOp

/-- R78: ILLEGAL_OP for descriptor 110; it takes precedence over UNSUPPORTED_FORMAT (R86). -/
def reserved110Result (_din : Word16) : EvalResult := .raised .illegalOp

/-- R78: ILLEGAL_OP for descriptor 111; it takes precedence over UNSUPPORTED_FORMAT (R86). -/
def reserved111Result (_din : Word16) : EvalResult := .raised .illegalOp

/-- ALAW_ENC (R76). -/
def execAlawEnc (_din : Word16) (s : State) : Host.Outcome State Fault Refusal := s.raise .unsupportedFormat

/-- ALAW_DEC (R77). -/
def execAlawDec (_din : Word16) (s : State) : Host.Outcome State Fault Refusal := s.raise .unsupportedFormat

/-- RESERVED_011 (R78). -/
def execReserved011 (_din : Word16) (s : State) : Host.Outcome State Fault Refusal := s.raise .illegalOp

/-- RESERVED_110 (R78). -/
def execReserved110 (_din : Word16) (s : State) : Host.Outcome State Fault Refusal := s.raise .illegalOp

/-- RESERVED_111 (R78). -/
def execReserved111 (_din : Word16) (s : State) : Host.Outcome State Fault Refusal := s.raise .illegalOp

/-- R75, R76: the source's `linear_to_g711(sample, format)`. -/
def linearToG711 (cfg : Cfg) (sample : Word16) : Format → EvalResult
  | .ulaw => ulawEncResult cfg sample
  | .alaw => alawEncResult sample

/-- R75, R77: the source's `g711_to_linear(byte, format)`. -/
def g711ToLinear (cfg : Cfg) (code : Byte) : Format → EvalResult
  | .ulaw => ulawDecResult cfg (0x00#8 ++ code)
  | .alaw => alawDecResult (0x00#8 ++ code)

end Sys2Proof.Machine
end

