-- ==== Sys2Proof/Machine/Eval.lean ====
section
/-! DEFINITION. The block as the pure function of R14, `eval : Cfg -> TW -> RW`: what the host's buffer procedures apply to
each sample (R21, R22). -/

namespace Sys2Proof.Machine

/-- The outcome of one transaction under a constant record (R39). -/
def resultOf (cfg : Cfg) : Instr → EvalResult
  | .ulawEnc din => ulawEncResult cfg din
  | .ulawDec din => ulawDecResult cfg din
  | .segSearch din => segSearchResult cfg din
  | .reserved011 din => reserved011Result din
  | .alawEnc din => alawEncResult din
  | .alawDec din => alawDecResult din
  | .reserved110 din => reserved110Result din
  | .reserved111 din => reserved111Result din

/-- R14: the block. -/
def eval (cfg : Cfg) (w : TW) : RW := (resultOf cfg (decode w)).pack

end Sys2Proof.Machine
end

