-- ==== Sys2Proof/Machine/Buffers.lean ====
section
/-! DEFINITION. The host buffer procedures (R19 to R28): BUF_ENC and BUF_DEC, with their preconditions, their sample-by-sample
loops, and what another agent's accesses during a call do. A call is one step of the model: its contract is all
20_memory.md gives (log entry 8). -/

namespace Sys2Proof.Machine

/-- R21: the number of samples of a `BUF_ENC` call, `len >> 1`; an odd last byte is not read (R23). -/
def BufCall.samples (c : BufCall) : Nat := c.len >>> 1

/-- R21: the input region `[in, in + 2n)` of a `BUF_ENC` call. -/
def BufCall.encIn (c : BufCall) : Region := ⟨c.inBase, 2 * c.samples⟩

/-- R21: the output region `[out, out + n)` of a `BUF_ENC` call. -/
def BufCall.encOut (c : BufCall) : Region := ⟨c.outBase, c.samples⟩

/-- R22: the input region `[in, in + len)` of a `BUF_DEC` call. -/
def BufCall.decIn (c : BufCall) : Region := ⟨c.inBase, c.len⟩

/-- R22: the output region `[out, out + 2*len)` of a `BUF_DEC` call. -/
def BufCall.decOut (c : BufCall) : Region := ⟨c.outBase, 2 * c.len⟩

/-- R28: another agent writes a byte of the region during the call. -/
def BufCall.disturbed (c : BufCall) (r : Region) : Bool := c.others.any (Access.writesIn r)

/-- One sample's outcome noted by a running call: ports and record (R37, R88), the output bytes, the accumulated status, and the
draw counter. -/
def State.finishSample (s : State) (res : EvalResult) (mem : Memory) (drawn : Bool) : State :=
  { s.drive res with
    mem := mem
    ret := some (accumulate (s.ret.getD .ok) res.status)
    draws := s.draws + drawn.toNat }

/-- R21: the 16-bit sample `i` of a `BUF_ENC` call; a free draw where another agent writes one of its bytes (R28). -/
def encInput (c : BufCall) (s : State) (i : Nat) : Word16 :=
  if c.disturbed ⟨c.inBase + 2 * i, 2⟩ then Config.freeSample s.draws
  else Memory.read16 s.plat.byteOrder s.mem (c.inBase + 2 * i)

/-- R22: the code `i` of a `BUF_DEC` call; a free draw where another agent writes it (R28). -/
def decInput (c : BufCall) (s : State) (i : Nat) : Byte :=
  if c.disturbed ⟨c.inBase + i, 1⟩ then Config.freeByte s.draws else Memory.read s.mem (c.inBase + i)

/-- R21: the evaluation `eval({fmt, 0b00, w})`. -/
def encSampleResult (cfg : Cfg) (f : Format) (w : Word16) : EvalResult :=
  resultOf cfg (decode (mkTW (mkDesc f .enc) w))

/-- R22: the evaluation `eval({fmt, 0b01, zext_16(c)})`. -/
def decSampleResult (cfg : Cfg) (f : Format) (c : Byte) : EvalResult :=
  resultOf cfg (decode (mkTW (mkDesc f .dec) (0x00#8 ++ c)))

/-- R21: one turn of `BUF_ENC`'s loop: read, evaluate, write `d[7:0]` at `out + i`, accumulate (R26). -/
def encSample (c : BufCall) (s : State) (i : Nat) : State :=
  s.finishSample (encSampleResult s.cfg c.fmt (encInput c s i))
    (Memory.write s.mem (c.outBase + i) ((encSampleResult s.cfg c.fmt (encInput c s i)).dout.extractLsb' 0 8))
    (c.disturbed ⟨c.inBase + 2 * i, 2⟩)

/-- R22: one turn of `BUF_DEC`'s loop: read, evaluate, write the sample at `out + 2*i`, accumulate (R26). -/
def decSample (c : BufCall) (s : State) (i : Nat) : State :=
  s.finishSample (decSampleResult s.cfg c.fmt (decInput c s i))
    (Memory.write16 s.plat.byteOrder s.mem (c.outBase + 2 * i) (decSampleResult s.cfg c.fmt (decInput c s i)).dout)
    (c.disturbed ⟨c.inBase + i, 1⟩)

/-- R21, R22: the samples of a call in a given order (ascending in a call, R26). -/
def runSamples (turn : State → Nat → State) (order : List Nat) (s : State) : State := order.foldl turn s

/-- The state a call's loop starts in: the accumulator is OK, and the other agents' writes have reached memory (R28). -/
def BufCall.start (c : BufCall) (s : State) : State :=
  { s with mem := c.others.foldl Access.apply s.mem, ret := some .ok }

/-- The checks before a buffer call: the constant record first (R5), then the preconditions in the order overlap (R24), size
(R25), output race (R28), and the existence of the addresses other agents use (R16). The order of those four is the
model's choice (DESIGN CHOICE, log entry 9). -/
def BufCall.guarded (c : BufCall) (inR outR : Region) (body : State → State) (s : State) :
    Host.Outcome State Fault Refusal :=
  s.checked (if inR.overlaps outR then .refused .bufferOverlap
    else if (s.ownsRegion inR && s.ownsRegion outR) = false then .refused .bufferSize
    else if c.others.any (fun x => outR.has x.addr) then .refused .outputRace
    else if c.others.all (fun x => s.addressExists x.addr) then .next (body (c.start s))
    else .fault .noSuchAddress)

/-- BUF_ENC (R21). -/
def execBufEnc (c : BufCall) (s : State) : Host.Outcome State Fault Refusal :=
  c.guarded c.encIn c.encOut (runSamples (encSample c) (List.range c.samples)) s

/-- BUF_DEC (R22). -/
def execBufDec (c : BufCall) (s : State) : Host.Outcome State Fault Refusal :=
  c.guarded c.decIn c.decOut (runSamples (decSample c) (List.range c.len)) s

/-- R20: the source's `encode` entry point is BUF_ENC with format µ-law. -/
def encodeEntry (inBase len outBase : Nat) : HostCmd := .bufEnc ⟨inBase, len, outBase, .ulaw, []⟩

/-- R20: the source's `decode` entry point is BUF_DEC with format µ-law. -/
def decodeEntry (inBase len outBase : Nat) : HostCmd := .bufDec ⟨inBase, len, outBase, .ulaw, []⟩

end Sys2Proof.Machine
end

