-- ==== Sys2Proof/Machine/Dispatch.lean ====
section
/-! DEFINITION. The dispatch: one arm per row of the opcode table, one meaning each (R39). -/

namespace Sys2Proof.Machine

def exec (i : Instr) (s : State) : Host.Outcome State Fault Refusal :=
  match i with
  | .ulawEnc din => Sys2Proof.Machine.execUlawEnc din s
  | .ulawDec din => Sys2Proof.Machine.execUlawDec din s
  | .segSearch din => Sys2Proof.Machine.execSegSearch din s
  | .reserved011 din => Sys2Proof.Machine.execReserved011 din s
  | .alawEnc din => Sys2Proof.Machine.execAlawEnc din s
  | .alawDec din => Sys2Proof.Machine.execAlawDec din s
  | .reserved110 din => Sys2Proof.Machine.execReserved110 din s
  | .reserved111 din => Sys2Proof.Machine.execReserved111 din s

end Sys2Proof.Machine
end

