-- ==== Sys2Proof/Machine/HostPort.lean ====
section
/-! DEFINITION. The host's actions on the block and on its own memory. The host is where sequencing lives (R8): the block has no
program counter, and fetches nothing (R30). Every action checks the constant record before anything else (R5). -/

namespace Sys2Proof.Machine

/-- R94: the value on the output ports, or the fault reading it is. -/
def State.portValue (s : State) : Except Fault RW :=
  match s.out with
  | none => .error .outputsNoValue
  | some w => if Status.ofCode (rwStatus w) = none then .error .statusNeverProduced else .ok w

/-- R94: the host reads the ports and keeps what it read. -/
def execReadPorts (s : State) : Host.Outcome State Fault Refusal :=
  s.checked (match s.portValue with
    | .error f => .fault f
    | .ok w => .next { s with lastRead := some w })

/-- R97: the latest `dout` fed at once into a transaction word with the given descriptor (log entry 15). -/
def execChain (desc : Desc) (s : State) : Host.Outcome State Fault Refusal :=
  s.checked (match s.portValue with
    | .error f => .fault f
    | .ok w => exec (decode (mkTW desc (rwDout w))) s)

/-- One evaluation presented and completed (R34). -/
def execEval (tw : TW) (s : State) : Host.Outcome State Fault Refusal := exec (decode tw) s

/-- R94: reading the ports while an evaluation is in flight faults under `EVAL_LATENCY > 0`; with latency 0 nothing is ever in
flight, and the evaluation completes before the read (log entry 11). -/
def execReadInFlight (tw : TW) (s : State) : Host.Outcome State Fault Refusal :=
  s.checked (if 0 < s.plat.evalLatency then .fault .outputsInFlight
    else match exec (decode tw) s with
      | .next t => execReadPorts t
      | .fault f => .fault f
      | .refused r => .refused r)

/-- R16: a byte stored in host memory; at an address that does not exist it faults (DESIGN CHOICE, log entry 18). -/
def execStore (a : Nat) (b : Byte) (s : State) : Host.Outcome State Fault Refusal :=
  s.checked (if s.addressExists a then .next { s with mem := Memory.write s.mem a b } else .fault .noSuchAddress)

/-- R25, R96: the caller comes to own a region; every byte of it must exist (R16), or owning it faults (DESIGN CHOICE, log
entry 10). -/
def execOwn (r : Region) (s : State) : Host.Outcome State Fault Refusal :=
  s.checked (if r.base + r.size ≤ 2 ^ s.plat.addrBits then .next { s with owned := r :: s.owned } else .fault .noSuchAddress)

/-- One host action. -/
def runCmd (c : HostCmd) (s : State) : Host.Outcome State Fault Refusal :=
  match c with
  | .eval tw => execEval tw s
  | .chain desc => execChain desc s
  | .readPorts => execReadPorts s
  | .readInFlight tw => execReadInFlight tw s
  | .store a b => execStore a b s
  | .own r => execOwn r s
  | .bufEnc c => execBufEnc c s
  | .bufDec c => execBufDec c s

/-- The constant record checked (R5), then the next host action, taken off the pending ones and run; with none pending the block
keeps what it holds, which is nothing but its ports (R13, log entry 2). -/
def runNext (s : State) : Host.Outcome State Fault Refusal :=
  s.checked (match s.cmds with
    | [] => .next s
    | c :: rest => runCmd c { s with cmds := rest })

/-- The transaction word `w` placed where the next step takes it: as the host's next action. -/
def State.present (s : State) (w : TW) : State := { s with cmds := .eval w :: s.cmds }

end Sys2Proof.Machine
end

