-- ==== Sys2Proof/Machine/Step.lean ====
section
/-! DEFINITION. One step of the machine: the host's next action. -/

namespace Sys2Proof.Machine

/-- One step (R8, R14): the host's next pending action is carried out. -/
def step (s : State) : Host.Outcome State Fault Refusal := runNext s

/-- The instruction word of `nbits` bits and value `w` presented so that the very next step evaluates it (log entry 2). The port
has 19 bits (R34). -/
def State.withFetchWord (s : State) (nbits w : Nat) : State := s.present (BitVec.ofNat 19 (w % 2 ^ nbits))

end Sys2Proof.Machine
end

