-- ==== Sys2Proof/Machine/Assembler.lean ====
section
/-! DEFINITION. The transaction notation of R43: its lines, their operand ranges, the pseudo-instructions' expansions, the
transaction word or host action a line stands for, the text of a line read, and a result written out. -/

namespace Sys2Proof.Machine

/-- One line of the notation (R43). -/
inductive Line where
  /-- `ENC.U <x>` -/
  | encU (x : Int)
  /-- `DEC.U <c>` -/
  | decU (c : Int)
  /-- `SEG <v>` -/
  | seg (v : Int)
  /-- `ENC.A <x>` -/
  | encA (x : Int)
  /-- `DEC.A <c>` -/
  | decA (c : Int)
  /-- `.tw <19-bit hex>` -/
  | tw (w : Int)
  /-- `G711ENC <x>, U|A` -/
  | g711enc (x : Int) (f : Format)
  /-- `G711DEC <c>, U|A` -/
  | g711dec (c : Int) (f : Format)
  /-- `ULAW <x>` -/
  | ulaw (x : Int)
  /-- `UNULAW <c>` -/
  | unulaw (c : Int)
  /-- `BUF_ENC <in>, <len>, <out>, U|A` -/
  | bufEnc (inBase len outBase : Nat) (f : Format)
  /-- `BUF_DEC <in>, <len>, <out>, U|A` -/
  | bufDec (inBase len outBase : Nat) (f : Format)
deriving DecidableEq, Repr

/-- R43: `x` is an integer in [-32768, 32767]. -/
def isSample (x : Int) : Bool := decide (-32768 ≤ x) && decide (x ≤ 32767)

/-- R43: `c` is a byte, 0..255. -/
def isCode (c : Int) : Bool := decide (0 ≤ c) && decide (c ≤ 255)

/-- R43: the operand ranges of the lines. -/
def Line.wf : Line → Bool
  | .encU x => isSample x
  | .decU c => isCode c
  | .seg v => decide (0 ≤ v) && decide (v ≤ 65535)
  | .encA x => isSample x
  | .decA c => isCode c
  | .tw w => decide (0 ≤ w) && decide (w < 2 ^ 19)
  | .g711enc x _ => isSample x
  | .g711dec c _ => isCode c
  | .ulaw x => isSample x
  | .unulaw c => isCode c
  | .bufEnc _ _ _ _ => true
  | .bufDec _ _ _ _ => true

/-- R43: the pseudo-instructions' expansions; every other line is its own. -/
def Line.expand : Line → Line
  | .g711enc x .ulaw => .encU x
  | .g711enc x .alaw => .encA x
  | .g711dec c .ulaw => .decU c
  | .g711dec c .alaw => .decA c
  | .ulaw x => .encU x
  | .unulaw c => .decU c
  | .encU x => .encU x
  | .decU c => .decU c
  | .seg v => .seg v
  | .encA x => .encA x
  | .decA c => .decA c
  | .tw w => .tw w
  | .bufEnc a n b f => .bufEnc a n b f
  | .bufDec a n b f => .bufDec a n b f

/-- R43: the transaction word of a base line: the row's pattern joined with the operand; none for a host procedure. -/
def Line.baseWord : Line → Option TW
  | .encU x => some (0x00000#19 ||| (BitVec.ofInt 16 x).setWidth 19)
  | .decU c => some (0x10000#19 ||| BitVec.ofInt 19 c)
  | .seg v => some (0x20000#19 ||| BitVec.ofInt 19 v)
  | .encA x => some (0x40000#19 ||| (BitVec.ofInt 16 x).setWidth 19)
  | .decA c => some (0x50000#19 ||| BitVec.ofInt 19 c)
  | .tw w => some (BitVec.ofInt 19 w)
  | .g711enc _ _ => none
  | .g711dec _ _ => none
  | .ulaw _ => none
  | .unulaw _ => none
  | .bufEnc _ _ _ _ => none
  | .bufDec _ _ _ _ => none

/-- The transaction word a line stands for; none for an operand out of range and for a host procedure. -/
def Line.word (l : Line) : Option TW := if l.wf then l.expand.baseWord else none

/-- The host action a line stands for. -/
def Line.cmd : Line → Option HostCmd
  | .bufEnc a n b f => some (.bufEnc ⟨a, n, b, f, []⟩)
  | .bufDec a n b f => some (.bufDec ⟨a, n, b, f, []⟩)
  | l => l.word.map HostCmd.eval

/-- The value of a hexadecimal or decimal digit. -/
def digitValue (c : Char) : Option Nat :=
  if '0' ≤ c ∧ c ≤ '9' then some (c.toNat - 48)
  else if 'A' ≤ c ∧ c ≤ 'F' then some (c.toNat - 55)
  else if 'a' ≤ c ∧ c ≤ 'f' then some (c.toNat - 87)
  else none

/-- The digits of a number in a radix, most significant first, added onto `acc`. -/
def readDigits (radix : Nat) : List Char → Nat → Option Nat
  | [], acc => some acc
  | c :: cs, acc =>
    match digitValue c with
    | none => none
    | some d => if d < radix then readDigits radix cs (acc * radix + d) else none

/-- An unsigned number: decimal, or hexadecimal after `0x` (R43). -/
def readNat : List Char → Option Nat
  | [] => none
  | ['0', 'x'] => none
  | '0' :: 'x' :: cs => readDigits 16 cs 0
  | c :: cs => readDigits 10 (c :: cs) 0

/-- A number with an optional minus sign (R43). -/
def readInt : List Char → Option Int
  | '-' :: cs => (readNat cs).map (fun n => -(n : Int))
  | cs => (readNat cs).map (fun n => (n : Int))

/-- The format letter of a pseudo-instruction or a host procedure (R43). -/
def readFormat : List Char → Option Format
  | ['U'] => some .ulaw
  | ['A'] => some .alaw
  | _ => none

/-- The text before a `;`, cut into words at spaces and commas; `word` is the word being read. -/
def words : List Char → List Char → List (List Char)
  | [], word => if word = [] then [] else [word]
  | c :: cs, word =>
    if c = ';' then (if word = [] then [] else [word])
    else if c = ' ' ∨ c = ',' then (if word = [] then words cs [] else word :: words cs [])
    else words cs (word ++ [c])

/-- A line with one operand, by its mnemonic. -/
def unaryLine (m : String) (x : Int) : Option Line :=
  if m = "ENC.U" then some (.encU x)
  else if m = "DEC.U" then some (.decU x)
  else if m = "SEG" then some (.seg x)
  else if m = "ENC.A" then some (.encA x)
  else if m = "DEC.A" then some (.decA x)
  else if m = "ULAW" then some (.ulaw x)
  else if m = "UNULAW" then some (.unulaw x)
  else none

/-- `.tw` takes the raw transaction word in hexadecimal only (R43). -/
def twLine : List Char → Option Line
  | '0' :: 'x' :: c :: cs => (readDigits 16 (c :: cs) 0).map (fun n => .tw n)
  | _ => none

/-- A line with an operand and a format letter, by its mnemonic. -/
def formatLine (m : String) (x : Int) (f : Format) : Option Line :=
  if m = "G711ENC" then some (.g711enc x f) else if m = "G711DEC" then some (.g711dec x f) else none

/-- A host procedure's line, by its mnemonic. -/
def bufferLine (m : String) (a n b : Nat) (f : Format) : Option Line :=
  if m = "BUF_ENC" then some (.bufEnc a n b f) else if m = "BUF_DEC" then some (.bufDec a n b f) else none

/-- The text of one line read (R43); none for text that is no line. -/
def readLine (text : String) : Option Line :=
  match words text.toList [] with
  | [m, x] => if String.ofList m = ".tw" then twLine x else (readInt x).bind (unaryLine (String.ofList m))
  | [m, x, f] => (readInt x).bind (fun x => (readFormat f).bind (formatLine (String.ofList m) x))
  | [m, a, n, b, f] =>
    (readNat a).bind (fun a => (readNat n).bind (fun n => (readNat b).bind (fun b =>
      (readFormat f).bind (bufferLine (String.ofList m) a n b))))
  | _ => none

/-- R43, R80: a status's name in a written result. -/
def Status.name : Status → String
  | .ok => "OK"
  | .unsupportedFormat => "UNSUPPORTED_FORMAT"
  | .illegalOp => "ILLEGAL_OP"

/-- One hexadecimal digit. -/
def hexDigit (d : BitVec 4) : Char := Char.ofNat (if d.toNat < 10 then 48 + d.toNat else 55 + d.toNat)

/-- A result written `-> <STATUS>, 0x<dout>` (R43); none for status 0b11, which is never produced. -/
def writeResult (w : RW) : Option String :=
  (Status.ofCode (rwStatus w)).map (fun st =>
    "-> " ++ st.name ++ ", 0x" ++ String.ofList
      [hexDigit (w.extractLsb' 12 4), hexDigit (w.extractLsb' 8 4), hexDigit (w.extractLsb' 4 4), hexDigit (w.extractLsb' 0 4)])

end Sys2Proof.Machine
end

