-- ==== Sys2Proof/Safety.lean ====
section
/-! DEFINITION. What a safe run is, in the terms the claims use: the invariant every step keeps, the caller's obligations on a
buffer call (R98), and the premise R88 gives a claim that needs valid data. -/

namespace Sys2Proof.Machine

/-- R38, R80: a result word the block can produce: its status is not 0b11, and a status other than OK comes with `dout` 0. -/
def legalResult (w : RW) : Prop := rwStatus w ≠ 0b11#2 ∧ (rwStatus w ≠ 0b00#2 → rwDout w = 0x0000#16)

/-- R88: the record holds a status; OK is never recorded and counts as held. -/
def StatusRecord.holds (rec : StatusRecord) : Status → Prop
  | .ok => True
  | .unsupportedFormat => rec.unsupportedFormat = true
  | .illegalOp => rec.illegalOp = true

/-- The invariant of the machine: what no step can break. -/
structure State.Inv (s : State) : Prop where
  /-- R5: the constant record is well formed. -/
  cfgWf : s.cfg.wf = true
  /-- Host memory is in its canonical form. -/
  memWf : Memory.wf s.mem = true
  /-- R16: no byte is held at an address that does not exist. -/
  memExists : ∀ cell ∈ s.mem, cell.1 < 2 ^ s.plat.addrBits
  /-- R16, R25: the caller owns existing memory only. -/
  ownedExists : ∀ r ∈ s.owned, r.base + r.size ≤ 2 ^ s.plat.addrBits
  /-- R80: the ports hold a result the block can produce. -/
  outLegal : ∀ w, s.out = some w → legalResult w
  /-- R80: so does what the host read last. -/
  readLegal : ∀ w, s.lastRead = some w → legalResult w
  /-- R88: the status on the ports is in the host's record. -/
  outRecorded : ∀ w st, s.out = some w → Status.ofCode (rwStatus w) = some st → s.statusRecord.holds st
  /-- R88: so is the status of the result word the host read last. -/
  readRecorded : ∀ w st, s.lastRead = some w → Status.ofCode (rwStatus w) = some st → s.statusRecord.holds st
  /-- R88: so is the status the latest buffer procedure returned. -/
  retRecorded : ∀ st, s.ret = some st → s.statusRecord.holds st

/-- R98, obligations 2 to 4, for a `BUF_ENC` or `BUF_DEC` call with the given regions: the regions share no byte, the caller owns
every byte of both, no other agent touches the output region, and the other agents use existing addresses. A region of no
bytes is owned wherever it starts (the model's choice, log entry 21). -/
structure CallerKeeps (s : State) (c : BufCall) (inR outR : Region) : Prop where
  apart : ∀ a, inR.has a = true → outR.has a = false
  ownsIn : ∀ a, inR.has a = true → s.owns a = true
  ownsOut : ∀ a, outR.has a = true → s.owns a = true
  noRace : ∀ x ∈ c.others, outR.has x.addr = false
  othersExist : ∀ x ∈ c.others, s.addressExists x.addr = true

/-- A step of the machine does not stop. -/
def State.Runs (s : State) : Prop := ∃ t, step s = .next t

/-- R88: no UNSUPPORTED_FORMAT or ILLEGAL_OP has been recorded: the premise of a claim that needs valid data. -/
def State.Valid (s : State) : Prop := s.statusRecord.clean = true

end Sys2Proof.Machine
end

