-- ==== Sys2Proof/Certificates/Slice0/Obligations.lean ====
section
/-! DEFINITION. The statements for the provers, from the spec's numbered rules. Each docstring names the rule it formalises.
A result is written in integer arithmetic on the operand, not by the model's own operand and result functions, so that
a wrong meaning would make it false. A statement whose conclusion is `exec i s = .next { s with … }` gives the result,
the completion and the whole frame at once: every field it does not name is `s`'s own. -/

open Sys2Proof Sys2Proof.Machine

namespace Sys2Proof.Claims

/-- R63: the segment of a linear sample under `CFG_DOC`, from the rule's table of boundaries in terms of `x`. -/
def docSegment (x : Int) : Nat :=
  if 0 ≤ x then
    if x ≤ 891 then 0 else if x ≤ 1915 then 1 else if x ≤ 3963 then 2 else if x ≤ 8059 then 3
    else if x ≤ 16251 then 4 else 5
  else
    if -888 ≤ x then 0 else if -1912 ≤ x then 1 else if -3960 ≤ x then 2 else if -8056 ≤ x then 3
    else if -16248 ≤ x then 4 else 5

/-- R63: the mantissa of a linear sample under `CFG_DOC`; `x / 4` rounds toward minus infinity. -/
def docMantissa (x : Int) : Nat := (min (x / 4).natAbs 8158 + 33) / 2 ^ (docSegment x + 3) % 16

/-- R63: the code of a linear sample under `CFG_DOC`: `not8({0, seg, Q})`, or `{0, seg, Q} ^ 0x7F` when `x < 0`. -/
def docCode (x : Int) : Nat :=
  if 0 ≤ x then 255 - (16 * docSegment x + docMantissa x) else 127 - (16 * docSegment x + docMantissa x)

/-- R72: the magnitudes of the complete decode table, one row a segment, as the rule lists them. -/
def decodeTable : List (List Int) :=
  [ [0, 8, 16, 24, 32, 40, 48, 56, 64, 72, 80, 88, 96, 104, 112, 120],
    [33, 49, 65, 81, 97, 113, 129, 145, 161, 177, 193, 209, 225, 241, 257, 273],
    [99, 131, 163, 195, 227, 259, 291, 323, 355, 387, 419, 451, 483, 515, 547, 579],
    [231, 295, 359, 423, 487, 551, 615, 679, 743, 807, 871, 935, 999, 1063, 1127, 1191],
    [495, 623, 751, 879, 1007, 1135, 1263, 1391, 1519, 1647, 1775, 1903, 2031, 2159, 2287, 2415],
    [1023, 1279, 1535, 1791, 2047, 2303, 2559, 2815, 3071, 3327, 3583, 3839, 4095, 4351, 4607, 4863],
    [2079, 2591, 3103, 3615, 4127, 4639, 5151, 5663, 6175, 6687, 7199, 7711, 8223, 8735, 9247, 9759],
    [4191, 5215, 6239, 7263, 8287, 9311, 10335, 11359, 12383, 13407, 14431, 15455, 16479, 17503, 18527, 19551] ]

/-- The linear value R66 to R70 give a code under a constant record: the pseudocode in integers, on `u = 255 - c`. -/
def linearValue (cfg : Cfg) (c : Nat) : Int :=
  let u := 255 - c
  let t : Int := ((u % 16) * 2 ^ cfg.decScale + cfg.decBias) * 2 ^ (u / 16 % 8)
  if 128 ≤ u then cfg.decBias - t else t - cfg.decBias

/-- A region of host memory holds an address (R16). -/
def inRegion (base size a : Nat) : Prop := base ≤ a ∧ a < base + size

/-- The caller owns the existing byte at an address (R16, R25). -/
def ownsByte (s : State) (a : Nat) : Prop := a < 2 ^ s.plat.addrBits ∧ ∃ r ∈ s.owned, inRegion r.base r.size a

/-- Another agent writes the byte at an address during the call (R28). -/
def writtenBy (xs : List Access) (a : Nat) : Prop := ∃ b, Access.write a b ∈ xs

/-- The two host buffer procedures (R21, R22). -/
inductive Procedure where
  | bufEnc
  | bufDec
deriving DecidableEq, Repr

/-- A call of a procedure. -/
def Procedure.call : Procedure → BufCall → State → Host.Outcome State Fault Refusal
  | .bufEnc => execBufEnc
  | .bufDec => execBufDec

/-- R21, R22: the input region of a procedure's call. -/
def Procedure.input : Procedure → BufCall → Region
  | .bufEnc, c => ⟨c.inBase, 2 * (c.len / 2)⟩
  | .bufDec, c => ⟨c.inBase, c.len⟩

/-- R21, R22: the output region of a procedure's call. -/
def Procedure.output : Procedure → BufCall → Region
  | .bufEnc, c => ⟨c.outBase, c.len / 2⟩
  | .bufDec, c => ⟨c.outBase, 2 * c.len⟩

/-- A function applied to an outcome's next state; a stop stays the stop it is. -/
def mapNext (f : State → State) : Host.Outcome State Fault Refusal → Host.Outcome State Fault Refusal
  | .next t => .next (f t)
  | .fault x => .fault x
  | .refused x => .refused x

/-- The same machine with another latency and another attachment (R31, R99). -/
def reattach (n : Nat) (a : Attach) (s : State) : State := { s with plat := { s.plat with evalLatency := n, attach := a } }

end Sys2Proof.Claims

open Sys2Proof.Claims

/-! ## Encodings -/

/-- R39: one transaction word of each descriptor, written out from the operation map, decodes to its row's instruction. -/
def Obligations.DecodeReadsWordsWrittenOut : Prop :=
  decode 0b000_0000001111101000#19 = .ulawEnc 1000#16 ∧ decode 0b001_0000000011101110#19 = .ulawDec 0xEE#16 ∧
    decode 0b010_0000000100101100#19 = .segSearch 300#16 ∧ decode 0b011_1111111111111111#19 = .reserved011 0xFFFF#16 ∧
    decode 0b100_0000001111101000#19 = .alawEnc 1000#16 ∧ decode 0b101_0000000011101110#19 = .alawDec 0xEE#16 ∧
    decode 0b110_0000000100101100#19 = .reserved110 300#16 ∧ decode 0b111_1010101111001101#19 = .reserved111 0xABCD#16

/-- R34, R40: decoder and encoder are inverse to each other on every well-formed instruction and every transaction word. -/
def Obligations.DecodeAndEncodeAgree : Prop :=
  (∀ i : Instr, i.wf = true → decode (encode i) = i) ∧ ∀ w : TW, encode (decode w) = w

/-- R39: each descriptor selects exactly one row of the opcode map, and the decoded instruction is that row's. -/
def Obligations.DescriptorSelectsOneRow : Prop :=
  ∀ w : TW, (decode w).row ∈ opcodeTable ∧ (decode w).row.pattern.toNat / 65536 = w.toNat / 65536 ∧
    ∀ r ∈ opcodeTable, r.accepts w = true ↔ r = (decode w).row

/-- R34, R35, R36: which bits of a transaction word are the format selector, the operation and the operand. -/
def Obligations.TransactionWordFields : Prop :=
  ∀ w : TW, (twFormat w = .ulaw ↔ w.toNat / 262144 = 0) ∧ (twFormat w = .alaw ↔ w.toNat / 262144 = 1) ∧
    (twOperation w = .enc ↔ w.toNat / 65536 % 4 = 0) ∧ (twOperation w = .dec ↔ w.toNat / 65536 % 4 = 1) ∧
    (twOperation w = .seg ↔ w.toNat / 65536 % 4 = 2) ∧ (twOperation w = .reserved ↔ w.toNat / 65536 % 4 = 3) ∧
    (twDesc w).toNat = w.toNat / 65536 ∧ (twDin w).toNat = w.toNat % 65536 ∧ mkTW (mkDesc (twFormat w) (twOperation w)) (twDin w) = w

/-- R37: the result word's status and `dout` fields. -/
def Obligations.ResultWordLayout : Prop :=
  ∀ r : EvalResult, r.pack.toNat = r.status.code.toNat * 65536 + r.dout.toNat ∧ rwStatus r.pack = r.status.code ∧
    rwDout r.pack = r.dout

/-- R32: the fields of a code word. The stored byte carries `c[7] = 1 - S`, `c[6:4] = 7 - E` and `c[3:0] = 15 - Q`. -/
def Obligations.CodeWordFields : Prop :=
  ∀ c : Byte, c.toNat = 128 * (1 - (codeSign c).toNat) + 16 * (7 - codeSegment c) + (15 - codeMantissa c) ∧
    codeSegment c ≤ 7 ∧ codeMantissa c ≤ 15

/-- R43: the transaction word of each line of the notation, for every operand in its range; the pseudo-instructions'
expansions, for every operand; and that an operand out of its range makes no word, of a pseudo-instruction either. -/
def Obligations.NotationWords : Prop :=
  (∀ x : Int, -32768 ≤ x → x ≤ 32767 → ∃ din : Word16, din.toInt = x ∧
      (Line.encU x).word.map decode = some (.ulawEnc din) ∧ (Line.encA x).word.map decode = some (.alawEnc din)) ∧
  (∀ c : Nat, c < 256 → ∃ din : Word16, din.toNat = c ∧
      (Line.decU c).word.map decode = some (.ulawDec din) ∧ (Line.decA c).word.map decode = some (.alawDec din)) ∧
  (∀ v : Nat, v < 65536 → ∃ din : Word16, din.toNat = v ∧ (Line.seg v).word.map decode = some (.segSearch din)) ∧
  (∀ w : TW, (Line.tw w.toNat).word = some w) ∧
  (∀ x : Int, (Line.ulaw x).word = (Line.encU x).word ∧ (Line.g711enc x .ulaw).word = (Line.encU x).word ∧
      (Line.g711enc x .alaw).word = (Line.encA x).word ∧ (Line.unulaw x).word = (Line.decU x).word ∧
      (Line.g711dec x .ulaw).word = (Line.decU x).word ∧ (Line.g711dec x .alaw).word = (Line.decA x).word) ∧
  (∀ x : Int, x < -32768 ∨ 32767 < x → (Line.encU x).word = none ∧ (Line.encA x).word = none ∧
      (Line.ulaw x).word = none ∧ ∀ f, (Line.g711enc x f).word = none) ∧
  (∀ c : Int, c < 0 ∨ 255 < c → (Line.decU c).word = none ∧ (Line.decA c).word = none ∧
      (Line.unulaw c).word = none ∧ ∀ f, (Line.g711dec c f).word = none) ∧
  (∀ v : Int, v < 0 ∨ 65535 < v → (Line.seg v).word = none) ∧
  (∀ w : Int, w < 0 ∨ 524287 < w → (Line.tw w).word = none)

/-! ## A step -/

/-- R8, R34: a step evaluates the transaction word the host presents: it is `exec` of the decoded instruction, with that action
taken off the host's pending ones; and a step whose next action is another one is that action's own meaning. With no
action pending a step changes nothing, under a well-formed record (R5). That the host's actions are pending ones, and the last clause, are the model's
choice (log entry 2). -/
def Obligations.StepRunsDecodedInstruction : Prop :=
  (∀ (s : State) (rest : List HostCmd),
    (∀ w, s.cmds = .eval w :: rest → step s = exec (decode w) { s with cmds := rest }) ∧
    (∀ d, s.cmds = .chain d :: rest → step s = execChain d { s with cmds := rest }) ∧
    (s.cmds = .readPorts :: rest → step s = execReadPorts { s with cmds := rest }) ∧
    (∀ w, s.cmds = .readInFlight w :: rest → step s = execReadInFlight w { s with cmds := rest }) ∧
    (∀ a b, s.cmds = .store a b :: rest → step s = execStore a b { s with cmds := rest }) ∧
    (∀ r, s.cmds = .own r :: rest → step s = execOwn r { s with cmds := rest }) ∧
    (∀ c, s.cmds = .bufEnc c :: rest → step s = execBufEnc c { s with cmds := rest }) ∧
    ∀ c, s.cmds = .bufDec c :: rest → step s = execBufDec c { s with cmds := rest }) ∧
  (∀ (s : State) (nbits w : Nat) (i : Instr), decodeTableWord nbits w = some i → step (s.withFetchWord nbits w) = exec i s) ∧
  ∀ s : State, s.cmds = [] → step s = (if s.cfg.wf then .next s else .refused .cfgIllFormed)

/-- R14, R40, R84: every transaction word is evaluated: the machine answers a next state whose ports hold `eval cfg w`, and the
reserved descriptors report ILLEGAL_OP. -/
def Obligations.EveryTransactionWordRuns : Prop :=
  ∀ (s : State) (w : TW), s.cfg.wf = true →
    (∃ t, exec (decode w) s = .next t ∧ t.out = some (eval s.cfg w)) ∧
    (twOperation w = .reserved ∨ (twOperation w = .seg ∧ twFormat w = .alaw) → eval s.cfg w = 0x20000#18)

/-- R87, R88: the frame of every instruction. Only the ports and the host's record can change; no byte of memory does. -/
def Obligations.EvaluationFrame : Prop :=
  ∀ (i : Instr) (s t : State), exec i s = .next t →
    t = { s with out := t.out, statusRecord := t.statusRecord } ∧ (∀ a, Memory.read t.mem a = Memory.read s.mem a)

/-! ## The results of the instructions -/

/-- R51: µ-law encode under every well-formed record; its word is `0x00000 | s16(x)`. `sh` is `asr(x, PRE_SHIFT)`, `b` the clamped and biased magnitude; the
code is composed from the least segment whose boundary is at or above `b`, or is the overflow code when there is none. -/
def Obligations.UlawEncGivesItsCode : Prop :=
  ∀ (s : State) (din : Word16) (sh b : Int) (mask : Nat), s.cfg.wf = true →
    sh * 2 ^ s.cfg.preShift ≤ din.toInt → din.toInt < (sh + 1) * 2 ^ s.cfg.preShift →
    b = min (sh.natAbs : Int) s.cfg.clip + s.cfg.encBias →
    mask = (if sh < 0 then s.cfg.negMask else s.cfg.posMask) →
    encode (.ulawEnc din) = 0x00000#19 ||| BitVec.ofNat 19 din.toNat ∧
    (∀ (seg : Nat) (h : seg < 8), b ≤ s.cfg.segTable[seg] → (∀ (j : Nat) (hj : j < seg), s.cfg.segTable[j] < b) →
      exec (.ulawEnc din) s = .next
        { s with out := some (BitVec.ofNat 18 ((seg * 16 + b.toNat / 2 ^ (seg + s.cfg.mantOff) % 16) ^^^ mask)) }) ∧
    ((∀ (j : Nat) (hj : j < 8), s.cfg.segTable[j] < b) →
      exec (.ulawEnc din) s = .next { s with out := some (BitVec.ofNat 18 (s.cfg.ovfCode.toNat ^^^ mask)) })

/-- R63: µ-law encode under `CFG_DOC`, for every sample, from the rule's own table of segment boundaries; the table agrees with
the rule's formula `find_segment(min(|asr(x,2)|, 8158) + 33)`. -/
def Obligations.UlawEncUnderDoc : Prop :=
  ∀ (s : State) (din : Word16), s.cfg = cfgDoc →
    exec (.ulawEnc din) s = .next { s with out := some (BitVec.ofNat 18 (docCode din.toInt)) } ∧
    docSegment din.toInt = findSegment cfgDoc (min ((din.toInt / 4).natAbs : Int) 8158 + 33)

/-- R66: µ-law decode under every well-formed record, its word being `0x10000 | c`: the code is `din[7:0]`, and `din[15:8]` is
ignored. -/
def Obligations.UlawDecGivesItsSample : Prop :=
  ∀ (s : State) (din : Word16) (y : Int), s.cfg.wf = true → y = linearValue s.cfg (din.toNat % 256) →
    -32768 ≤ y → y ≤ 32767 →
    encode (.ulawDec din) = 0x10000#19 ||| BitVec.ofNat 19 din.toNat ∧
      exec (.ulawDec din) s = .next { s with out := some (BitVec.ofNat 18 (y % 65536).toNat) }

/-- A linear value outside the 16-bit range, which `s16` gives no pattern, leaves `dout` open (the model's choice: log entry 5):
the evaluation completes all the same, with status OK, and codes of one linear value get one `dout`. -/
def Obligations.UlawDecCompletesOnOpenValues : Prop :=
  ∀ (cfg : Cfg) (y : Int), cfg.wf = true → ∃ d : Word16, ∀ (s : State) (din : Word16), s.cfg = cfg →
    linearValue cfg (din.toNat % 256) = y → exec (.ulawDec din) s = .next { s with out := some (BitVec.ofNat 18 d.toNat) }

/-- R72: the complete decode table under `CFG_DOC`, for both signs and every value of the ignored byte. -/
def Obligations.DecodeTableUnderDoc : Prop :=
  ∀ (s : State) (e q : Nat) (hi : Byte), s.cfg = cfgDoc → e < 8 → q < 16 →
    ∃ m : Int, (decodeTable[e]?.bind (·[q]?)) = some m ∧ m = (8 * q + 33) * 2 ^ e - 33 ∧
      exec (.ulawDec (hi ++ BitVec.ofNat 8 (0xFF - (16 * e + q)))) s =
        .next { s with out := some (0b00#2 ++ BitVec.ofInt 16 m) } ∧
      exec (.ulawDec (hi ++ BitVec.ofNat 8 (0x7F - (16 * e + q)))) s =
        .next { s with out := some (0b00#2 ++ BitVec.ofInt 16 (-m)) }

/-- R45, R46: segment search under every well-formed record, its word being `0x20000 | v`: the least index whose boundary is at or above the unsigned operand,
or 8, always with status OK. -/
def Obligations.SegSearchGivesLeastIndex : Prop :=
  ∀ (s : State) (din : Word16), s.cfg.wf = true →
    encode (.segSearch din) = 0x20000#19 ||| BitVec.ofNat 19 din.toNat ∧
    (∀ (i : Nat) (h : i < 8), (din.toNat : Int) ≤ s.cfg.segTable[i] →
      (∀ (j : Nat) (hj : j < i), s.cfg.segTable[j] < (din.toNat : Int)) →
      exec (.segSearch din) s = .next { s with out := some (BitVec.ofNat 18 i) }) ∧
    ((∀ (j : Nat) (hj : j < 8), s.cfg.segTable[j] < (din.toNat : Int)) →
      exec (.segSearch din) s = .next { s with out := some 8#18 })

/-- R48: the boundaries, the comparisons and the closed form of the segment search under `CFG_DOC`, through SEG_SEARCH. -/
def Obligations.SegSearchClosedFormUnderDoc : Prop :=
  ∀ (s : State) (din : Word16), s.cfg = cfgDoc →
    (∀ (i : Nat) (h : i < 8), cfgDoc.segTable[i] = 2 ^ (i + 8) - 1 ∧
      ((din.toNat : Int) ≤ cfgDoc.segTable[i] ↔ din.toNat / 2 ^ (i + 8) = 0)) ∧
    exec (.segSearch din) s = .next
      { s with out := some (BitVec.ofNat 18 (if din.toNat < 256 then 0 else Nat.log2 din.toNat + 1 - 8)) }

/-- R76, R77: an A-law request completes with UNSUPPORTED_FORMAT and `dout` 0, whatever `din` is, and the host records it. -/
def Obligations.AlawRequestsRaiseUnsupportedFormat : Prop :=
  ∀ (s : State) (din : Word16), s.cfg.wf = true →
    encode (.alawEnc din) = 0x40000#19 ||| BitVec.ofNat 19 din.toNat ∧
    encode (.alawDec din) = 0x50000#19 ||| BitVec.ofNat 19 din.toNat ∧
    exec (.alawEnc din) s =
      .next { s with out := some 0x10000#18, statusRecord := { s.statusRecord with unsupportedFormat := true } } ∧
    exec (.alawDec din) s =
      .next { s with out := some 0x10000#18, statusRecord := { s.statusRecord with unsupportedFormat := true } }

/-- R78, R82: each reserved descriptor completes with ILLEGAL_OP and `dout` 0, whatever `din` is, and the host records it. -/
def Obligations.ReservedDescriptorsRaiseIllegalOp : Prop :=
  ∀ (s : State) (din : Word16), s.cfg.wf = true →
    twDesc (encode (.reserved011 din)) = 0b011#3 ∧ twDesc (encode (.reserved110 din)) = 0b110#3 ∧
    twDesc (encode (.reserved111 din)) = 0b111#3 ∧
    exec (.reserved011 din) s =
      .next { s with out := some 0x20000#18, statusRecord := { s.statusRecord with illegalOp := true } } ∧
    exec (.reserved110 din) s =
      .next { s with out := some 0x20000#18, statusRecord := { s.statusRecord with illegalOp := true } } ∧
    exec (.reserved111 din) s =
      .next { s with out := some 0x20000#18, statusRecord := { s.statusRecord with illegalOp := true } }

/-- R75: the dispatch functions with format µ-law are the µ-law transforms, for every input. -/
def Obligations.UlawFormatDelegates : Prop :=
  ∀ (cfg : Cfg) (x : Word16) (c : Byte),
    linearToG711 cfg x .ulaw = resultOf cfg (.ulawEnc x) ∧ g711ToLinear cfg c .ulaw = resultOf cfg (.ulawDec (0x00#8 ++ c)) ∧
      decode (mkTW (mkDesc .ulaw .enc) x) = .ulawEnc x ∧
      decode (mkTW (mkDesc .ulaw .dec) (0x00#8 ++ c)) = .ulawDec (0x00#8 ++ c)

/-- R5: which records are well formed; `CFG_DOC` is one; under an ill-formed one every evaluation, every host action and every
step is refused, whatever the rest of the state is: the record is checked first. -/
def Obligations.IllFormedRecordIsRefused : Prop :=
  (∀ cfg : Cfg, cfg.wf = true ↔
    ((∀ (i : Nat) (h : i < 8), 0 ≤ cfg.segTable[i] ∧ cfg.segTable[i] ≤ 32767) ∧
      (∀ (i : Nat) (h : i < 7), cfg.segTable[i] ≤ cfg.segTable[i + 1]) ∧
      cfg.segCount = 8 ∧ cfg.mantBits = 4 ∧ 0 ≤ cfg.clip ∧ cfg.posMask < 256 ∧ cfg.negMask < 256)) ∧
  cfgDoc.wf = true ∧
  ∀ s : State, s.cfg.wf = false → step s = .refused .cfgIllFormed ∧ (∀ i, exec i s = .refused .cfgIllFormed) ∧
    (∀ c, runCmd c s = .refused .cfgIllFormed) ∧ execReadPorts s = .refused .cfgIllFormed ∧
    (∀ d, execChain d s = .refused .cfgIllFormed) ∧ (∀ w, execReadInFlight w s = .refused .cfgIllFormed) ∧
    (∀ a b, execStore a b s = .refused .cfgIllFormed) ∧ (∀ r, execOwn r s = .refused .cfgIllFormed) ∧
    (∀ c, execBufEnc c s = .refused .cfgIllFormed) ∧ ∀ c, execBufDec c s = .refused .cfgIllFormed

/-! ## The encoder and the decoder as a whole -/

/-- R52 to R56: the ranges of the quantizer front end under `CFG_DOC`, and exactly which samples the clamp changes. -/
def Obligations.QuantizerUnderDoc : Prop :=
  ∀ x : Int, -32768 ≤ x → x ≤ 32767 →
    (4 * preShifted cfgDoc x ≤ x ∧ x < 4 * preShifted cfgDoc x + 4) ∧ (preShifted cfgDoc x < 0 ↔ x < 0) ∧
    signMask cfgDoc (preShifted cfgDoc x) = (if x < 0 then 0x7F#8 else 0xFF#8) ∧
    magnitude (preShifted cfgDoc x) = ((preShifted cfgDoc x).natAbs : Int) ∧
    0 ≤ magnitude (preShifted cfgDoc x) ∧ magnitude (preShifted cfgDoc x) ≤ 8192 ∧
    (magnitude (preShifted cfgDoc x) = 8192 ↔ x ≤ -32765) ∧
    (clamp cfgDoc (magnitude (preShifted cfgDoc x)) ≠ magnitude (preShifted cfgDoc x) ↔ 32636 ≤ x ∨ x ≤ -32633) ∧
    biased cfgDoc x = min (magnitude (preShifted cfgDoc x)) 8158 + 33 ∧ 33 ≤ biased cfgDoc x ∧ biased cfgDoc x ≤ 8191

/-- R58: the overflow branch. A biased magnitude above every boundary takes the overflow code adjusted for sign: 0x80 or 0x00
under `CFG_DOC`'s codes, with `S` the sign, `E = 7` and `Q = 15`. -/
def Obligations.OverflowBranchGivesTopCode : Prop :=
  ∀ (cfg : Cfg) (b : Int), cfg.wf = true → cfg.ovfCode = 0x7F#8 → (∀ (j : Nat) (h : j < 8), cfg.segTable[j] < b) →
    codeOfBiased cfg b 0xFF#8 = 0x80#8 ∧ codeOfBiased cfg b 0x7F#8 = 0x00#8 ∧
      codeSign 0x80#8 = false ∧ codeSign 0x00#8 = true ∧ codeSegment 0x80#8 = 7 ∧ codeSegment 0x00#8 = 7 ∧
      codeMantissa 0x80#8 = 15 ∧ codeMantissa 0x00#8 = 15

/-- R44: the fields the encoder writes, under every well-formed record with `CFG_DOC`'s masks and overflow code: S is the sign,
E the segment and Q the mantissa, and on the overflow branch E = 7 and Q = 15. -/
def Obligations.EncoderWritesSignSegmentMantissa : Prop :=
  ∀ (cfg : Cfg) (x : Int), cfg.wf = true → cfg.posMask = 0xFF → cfg.negMask = 0x7F → cfg.ovfCode = 0x7F#8 →
    codeSign (ulawCode cfg x) = decide (preShifted cfg x < 0) ∧
    (findSegment cfg (biased cfg x) < 8 →
      codeSegment (ulawCode cfg x) = findSegment cfg (biased cfg x) ∧
      codeMantissa (ulawCode cfg x) =
        (biased cfg x).toNat / 2 ^ (findSegment cfg (biased cfg x) + cfg.mantOff) % 16) ∧
    (findSegment cfg (biased cfg x) = 8 → codeSegment (ulawCode cfg x) = 7 ∧ codeMantissa (ulawCode cfg x) = 15)

/-- R64: sign preservation under `CFG_DOC`: the S field of the code is 1 exactly when the sample is negative, so the result has
bit 7 set exactly when it is not. -/
def Obligations.EncoderPreservesSign : Prop :=
  ∀ (s : State) (din : Word16), s.cfg = cfgDoc →
    ∃ (t : State) (w : RW), exec (.ulawEnc din) s = .next t ∧ t.out = some w ∧ (w.getLsbD 7 = true ↔ 0 ≤ din.toInt) ∧
      codeSign (w.extractLsb' 0 8) = decide (din.toInt < 0)

/-- R62: what the encoder reaches under `CFG_DOC`: segments 0 to 5 only; exactly the 192 codes with E at most 5; the wrap of
segment 0, which makes the code not monotone; and the sixteen mantissas of segments 1 to 5. -/
def Obligations.EncoderReachUnderDoc : Prop :=
  (∀ x : Int, -32768 ≤ x → x ≤ 32767 → findSegment cfgDoc (biased cfgDoc x) ≤ 5) ∧
  (∀ (s : State) (c : Nat), s.cfg = cfgDoc → c < 256 →
    ((∃ din, exec (.ulawEnc din) s = .next { s with out := some (BitVec.ofNat 18 c) }) ↔
      (32 ≤ c ∧ c ≤ 127) ∨ 160 ≤ c)) ∧
  (∀ b : Nat, 33 ≤ b → b ≤ 255 → findSegment cfgDoc b = 0 ∧
    mantissa cfgDoc b 0 = (if b ≤ 127 then b / 8 else b / 8 - 16)) ∧
  (∀ s : State, s.cfg = cfgDoc → exec (.ulawEnc 379#16) s = .next { s with out := some 0x000F0#18 } ∧
    exec (.ulawEnc 380#16) s = .next { s with out := some 0x000FF#18 }) ∧
  ∀ e b : Nat, 1 ≤ e → e ≤ 5 → 2 ^ (e + 7) ≤ b → b ≤ 2 ^ (e + 8) - 1 →
    findSegment cfgDoc b = e ∧ mantissa cfgDoc b e = b / 2 ^ (e + 3) - 16

/-- R65: the saturated region under `CFG_DOC`, and exactly which samples get the two top codes; 30000 gets another. -/
def Obligations.SaturatedRegionUnderDoc : Prop :=
  ∀ (s : State) (din : Word16), s.cfg = cfgDoc →
    (exec (.ulawEnc din) s = .next { s with out := some 0x000A0#18 } ↔ 31612 ≤ din.toInt) ∧
    (exec (.ulawEnc din) s = .next { s with out := some 0x00020#18 } ↔ din.toInt ≤ -31609) ∧
    (32632 ≤ din.toInt ∨ din.toInt ≤ -32629 → 8158 ≤ magnitude (preShifted cfgDoc din.toInt) ∧
      biased cfgDoc din.toInt = 8191 ∧ findSegment cfgDoc (biased cfgDoc din.toInt) = 5 ∧
      mantissa cfgDoc (biased cfgDoc din.toInt) 5 = 15) ∧
    exec (.ulawEnc 30000#16) s = .next { s with out := some 0x000A2#18 }

/-- R61: the ranges of the encode path's values under `CFG_DOC`: no step overflows the width the rule gives it. -/
def Obligations.EncoderWidthsUnderDoc : Prop :=
  ∀ x : Int, -32768 ≤ x → x ≤ 32767 →
    -8192 ≤ preShifted cfgDoc x ∧ preShifted cfgDoc x ≤ 8191 ∧
    0 ≤ magnitude (preShifted cfgDoc x) ∧ magnitude (preShifted cfgDoc x) ≤ 8192 ∧
    33 ≤ biased cfgDoc x ∧ biased cfgDoc x ≤ 8191 ∧ findSegment cfgDoc (biased cfgDoc x) ≤ 5 ∧
    ((32 ≤ (ulawCode cfgDoc x).toNat ∧ (ulawCode cfgDoc x).toNat ≤ 0x7F) ∨ 0xA0 ≤ (ulawCode cfgDoc x).toNat) ∧
    0 ≤ clamp cfgDoc (magnitude (preShifted cfgDoc x)) ∧ clamp cfgDoc (magnitude (preShifted cfgDoc x)) ≤ 8158 ∧
    mantissa cfgDoc (biased cfgDoc x) (findSegment cfgDoc (biased cfgDoc x)) ≤ 15 ∧
    (composed cfgDoc (biased cfgDoc x) (findSegment cfgDoc (biased cfgDoc x))).toNat =
      findSegment cfgDoc (biased cfgDoc x) * 16 +
        mantissa cfgDoc (biased cfgDoc x) (findSegment cfgDoc (biased cfgDoc x)) ∧
    (composed cfgDoc (biased cfgDoc x) (findSegment cfgDoc (biased cfgDoc x))).toNat ≤ 0x5F

/-- R71: the decoder's range under `CFG_DOC`: every result is a sample in [-19551, 19551], equal to the value before it is cut to
16 bits. -/
def Obligations.DecoderRangeUnderDoc : Prop :=
  ∀ (s : State) (din : Word16), s.cfg = cfgDoc →
    ∃ (t : State) (w : RW), exec (.ulawDec din) s = .next t ∧ t.out = some w ∧
      (rwDout w).toInt = linearValue cfgDoc (din.toNat % 256) ∧ -19551 ≤ (rwDout w).toInt ∧ (rwDout w).toInt ≤ 19551

/-- R73: exactly two codes decode to 0 under `CFG_DOC`. -/
def Obligations.TwoZerosUnderDoc : Prop :=
  ∀ (s : State) (din : Word16), s.cfg = cfgDoc →
    (exec (.ulawDec din) s = .next { s with out := some 0x00000#18 } ↔ din.toNat % 256 = 0xFF ∨ din.toNat % 256 = 0x7F)

/-- R74: encoding a decoded code gives it back for exactly two codes under `CFG_DOC`. Both evaluations complete for every code. -/
def Obligations.RoundTripHoldsForTwoCodes : Prop :=
  ∀ (s : State) (din : Word16), s.cfg = cfgDoc →
    ∃ (t u : State) (w v : RW), exec (.ulawDec din) s = .next t ∧ t.out = some w ∧
      exec (.ulawEnc (rwDout w)) t = .next u ∧ u.out = some v ∧
      (v.toNat = din.toNat % 256 ↔ din.toNat % 256 = 0x7A ∨ din.toNat % 256 = 0xFA)

/-! ## The segment search as hardware -/

/-- R47: the comparator tree over the 16-bit ROM words computes `find_segment` under every well-formed record, its comparator
vector is a thermometer code, and so does the binary comparison tree. -/
def Obligations.ComparatorTreeComputesFindSegment : Prop :=
  ∀ (cfg : Cfg) (v : Int), cfg.wf = true →
    comparatorTree cfg v = findSegment cfg v ∧ binaryTree cfg v = findSegment cfg v ∧
      ∀ i j : BitVec 3, i.toNat ≤ j.toNat → comparator cfg v j = true → comparator cfg v i = true

/-- R49: the segment search is monotone under every well-formed record: a larger value never gets a smaller index, and the same
holds of SEG_SEARCH's results. -/
def Obligations.SegSearchIsMonotone : Prop :=
  (∀ (cfg : Cfg) (v w : Int), cfg.wf = true → v ≤ w → findSegment cfg v ≤ findSegment cfg w) ∧
  ∀ (s : State) (a b : Word16), s.cfg.wf = true → a.toNat ≤ b.toNat →
    ∃ (i j : Nat), exec (.segSearch a) s = .next { s with out := some (BitVec.ofNat 18 i) } ∧
      exec (.segSearch b) s = .next { s with out := some (BitVec.ofNat 18 j) } ∧ i ≤ j ∧ j ≤ 8

/-- R11, R95: the segment ROM's words under `CFG_DOC`, which is what the machine holds after reset. -/
def Obligations.SegmentRomHoldsItsTable : Prop :=
  State.reset.cfg = cfgDoc ∧ ∀ i : BitVec 3, (romRead State.reset.cfg i).toNat = 2 ^ (i.toNat + 8) - 1

/-- R10, R95, R30: no host action changes the constants, the ROM or the open parameters: no step writes them. -/
def Obligations.NoStepWritesTheConstants : Prop :=
  ∀ s t : State, step s = .next t → t.cfg = s.cfg ∧ t.plat = s.plat

/-! ## Statuses -/

/-- R80, R86: the status depends on the descriptor alone: OK for 000, 001 and 010, UNSUPPORTED_FORMAT for 100 and 101,
ILLEGAL_OP for 011, 110 and 111; a status other than OK comes with `dout` 0. -/
def Obligations.StatusIsTheDescriptors : Prop :=
  ∀ (s : State) (d : Desc) (din : Word16), s.cfg.wf = true →
    ∃ (t : State) (w : RW), exec (decode (mkTW d din)) s = .next t ∧ t.out = some w ∧
      rwStatus w = (if d = 0b011#3 ∨ d = 0b110#3 ∨ d = 0b111#3 then 0b10#2
        else if d = 0b100#3 ∨ d = 0b101#3 then 0b01#2 else 0b00#2) ∧
      (rwStatus w ≠ 0b00#2 → rwDout w = 0x0000#16)

/-- R88: the host's record is never cleared by a step, and an evaluation's status is in it. -/
def Obligations.StatusRecordIsSticky : Prop :=
  (∀ (s t : State) (st : Status), step s = .next t → s.statusRecord.holds st → t.statusRecord.holds st) ∧
  ∀ (i : Instr) (s t : State), exec i s = .next t → t.statusRecord.holds (resultOf s.cfg i).status ∧
    ((resultOf s.cfg i).status = .ok → t.statusRecord = s.statusRecord)

/-- R13: two evaluations of the same transaction word give the same result word, whatever ran between them. -/
def Obligations.ResultIsIndependentOfHistory : Prop :=
  ∀ (k : Nat) (s u : State) (w : TW), s.cfg.wf = true → Host.Core.run core k s = .next u →
    ∃ t v : State, exec (decode w) s = .next t ∧ exec (decode w) u = .next v ∧ t.out = v.out

/-- R99, R31: no step depends on the latency or on how the block is attached, but that a read of an evaluation in flight tells a
latency of 0 from any other (R94; log entry 11). -/
def Obligations.LatencyAndAttachmentAreInvisible : Prop :=
  ∀ (s : State) (n : Nat) (a : Attach),
    (∀ w, s.cmds.head? = some (.readInFlight w) → (0 < n ↔ 0 < s.plat.evalLatency)) →
    step (reattach n a s) = mapNext (reattach n a) (step s)

/-! ## The output ports -/

/-- R94, under a well-formed record: reading the ports before the first evaluation faults, and so does reading them in flight; after an evaluation they give
its result word, and reading them changes nothing but what the host has read. The model's choices here: the host keeps
what it read last (log entry 10); feeding `dout` on reads the ports (log entry 15); with latency 0 a read in flight
gives the evaluation just presented (log entry 11). Status 0b11 on the ports, which no evaluation leaves, faults (93, I17). -/
def Obligations.PortsHaveNoValueBeforeAnEvaluation : Prop :=
  (∀ (s : State) (d : Desc), s.cfg.wf = true → s.out = none →
    execReadPorts s = .fault .outputsNoValue ∧ execChain d s = .fault .outputsNoValue) ∧
  (∀ (s : State) (w : TW), s.cfg.wf = true → 0 < s.plat.evalLatency → execReadInFlight w s = .fault .outputsInFlight) ∧
  (∀ (s : State) (w : RW), s.cfg.wf = true → s.out = some w →
    execReadPorts s = (if rwStatus w = 0b11#2 then .fault .statusNeverProduced else .next { s with lastRead := some w })) ∧
  (∀ (s : State) (w : TW), s.cfg.wf = true →
    ∃ t, exec (decode w) s = .next t ∧ execReadPorts t = .next { t with lastRead := some (eval s.cfg w) } ∧
      (s.plat.evalLatency = 0 → execReadInFlight w s = .next { t with lastRead := some (eval s.cfg w) }))

/-- R97: a result's `dout` can be fed into the next transaction word at once: the evaluation is that of `{desc, dout}`. -/
def Obligations.ResultFeedsTheNextTransaction : Prop :=
  ∀ (s : State) (w : TW) (d : Desc) (rest : List HostCmd), s.cfg.wf = true → s.cmds = .eval w :: .chain d :: rest →
    ∃ t u : State, step s = .next t ∧ step t = .next u ∧
      u.out = some (eval s.cfg (mkTW d (rwDout (eval s.cfg w)))) ∧ u.cmds = rest

/-! ## Invariants -/

/-- Every step keeps the machine's invariant: the constant record stays well formed (R5), host memory and the owned regions stay
canonical and inside the address space (R16), the ports and the host's last read hold only result words R80 allows, and
every status seen, on the ports, in the host's last read or returned by a call, is in the host's record (R88). -/
def Obligations.StepKeepsInv : Prop := ∀ s t : State, s.Inv → step s = .next t → t.Inv

/-- The machine after reset meets the invariant, its ports have no value (R94), no status is recorded (95 L3), and it holds
`CFG_DOC`; that its memory lists nothing, so that every byte reads as 0x00, is the model's choice (log entry 7). -/
def Obligations.ResetMeetsInv : Prop :=
  State.reset.Inv ∧ State.reset.out = none ∧ State.reset.statusRecord.clean = true ∧ State.reset.mem = [] ∧
    State.reset.cfg = cfgDoc

/-! ## Host memory -/

/-- R16: a store changes the byte at its address and no other, in canonical form; an address outside the address space does not
exist, and that a store there faults is the model's choice (log entry 18). -/
def Obligations.StoreChangesOneByte : Prop :=
  ∀ (s : State) (a : Nat) (b : Byte), s.cfg.wf = true → Memory.wf s.mem = true →
    (a < 2 ^ s.plat.addrBits → ∃ t, execStore a b s = .next t ∧ t = { s with mem := t.mem } ∧ Memory.wf t.mem = true ∧
      ∀ x, Memory.read t.mem x = if x = a then b else Memory.read s.mem x) ∧
    (2 ^ s.plat.addrBits ≤ a → execStore a b s = .fault .noSuchAddress)

/-- The caller comes to own a region that exists: it owns the region's bytes and those it owned before; a region that reaches
past the address space cannot be owned, and the attempt faults. Addresses and ownership are R16's and R25's; that
owning is an action of the host, and its fault, are the model's choice (log entry 10). -/
def Obligations.OwningARegion : Prop :=
  ∀ (s : State) (r : Region), s.cfg.wf = true →
    (r.base + r.size ≤ 2 ^ s.plat.addrBits →
      ∃ t, execOwn r s = .next t ∧ t = { s with owned := t.owned } ∧
        ∀ a, ownsByte t a ↔ ownsByte s a ∨ inRegion r.base r.size a) ∧
    (2 ^ s.plat.addrBits < r.base + r.size → execOwn r s = .fault .noSuchAddress)

/-- R17, R18: the two bytes of a sample in host memory, in either byte order, at every address, odd or even. -/
def Obligations.SampleBytesInMemory : Prop :=
  ∀ (m : Memory) (a : Nat) (v : Word16) (x : Nat), Memory.wf m = true →
    Memory.read (Memory.write16 .little m a v) x =
      (if x = a then v.extractLsb' 0 8 else if x = a + 1 then v.extractLsb' 8 8 else Memory.read m x) ∧
    Memory.read (Memory.write16 .big m a v) x =
      (if x = a then v.extractLsb' 8 8 else if x = a + 1 then v.extractLsb' 0 8 else Memory.read m x) ∧
    Memory.read16 .little m a = Memory.read m (a + 1) ++ Memory.read m a ∧
    Memory.read16 .big m a = Memory.read m a ++ Memory.read m (a + 1) ∧
    ∀ o : ByteOrder, Memory.read16 o (Memory.write16 o m a v) a = v ∧ Memory.wf (Memory.write16 o m a v) = true

/-! ## The host buffer procedures -/

/-- R21: BUF_ENC, with no other agent at work: it completes, output byte `k` is the evaluation of input sample `k` as memory held
it before the call, every other byte is unchanged, and the result is OK, or UNSUPPORTED_FORMAT for A-law. -/
def Obligations.BufEncEncodesEverySample : Prop :=
  ∀ (s : State) (c : BufCall), s.cfg.wf = true → Memory.wf s.mem = true → c.others = [] →
    CallerKeeps s c ⟨c.inBase, 2 * (c.len / 2)⟩ ⟨c.outBase, c.len / 2⟩ →
    ∃ t : State, execBufEnc c s = .next t ∧
      (∀ k, k < c.len / 2 → Memory.read t.mem (c.outBase + k) =
        (eval s.cfg (mkTW (mkDesc c.fmt .enc) (Memory.read16 s.plat.byteOrder s.mem (c.inBase + 2 * k)))).extractLsb' 0 8) ∧
      (∀ a, ¬ inRegion c.outBase (c.len / 2) a → Memory.read t.mem a = Memory.read s.mem a) ∧
      t.ret = some (if c.fmt = .alaw ∧ 0 < c.len / 2 then .unsupportedFormat else .ok) ∧
      t.statusRecord =
        (if c.fmt = .alaw ∧ 0 < c.len / 2 then { s.statusRecord with unsupportedFormat := true } else s.statusRecord) ∧
      t = { s with out := t.out, mem := t.mem, ret := t.ret, statusRecord := t.statusRecord }

/-- R22: BUF_DEC, with no other agent at work: it completes, output sample `k` is the evaluation of input code `k` as memory held
it before the call, every other byte is unchanged, and the result is OK, or UNSUPPORTED_FORMAT for A-law. -/
def Obligations.BufDecDecodesEveryCode : Prop :=
  ∀ (s : State) (c : BufCall), s.cfg.wf = true → Memory.wf s.mem = true → c.others = [] →
    CallerKeeps s c ⟨c.inBase, c.len⟩ ⟨c.outBase, 2 * c.len⟩ →
    ∃ t : State, execBufDec c s = .next t ∧
      (∀ k, k < c.len → Memory.read16 s.plat.byteOrder t.mem (c.outBase + 2 * k) =
        rwDout (eval s.cfg (mkTW (mkDesc c.fmt .dec) (0x00#8 ++ Memory.read s.mem (c.inBase + k))))) ∧
      (∀ a, ¬ inRegion c.outBase (2 * c.len) a → Memory.read t.mem a = Memory.read s.mem a) ∧
      t.ret = some (if c.fmt = .alaw ∧ 0 < c.len then .unsupportedFormat else .ok) ∧
      t.statusRecord =
        (if c.fmt = .alaw ∧ 0 < c.len then { s.statusRecord with unsupportedFormat := true } else s.statusRecord) ∧
      t = { s with out := t.out, mem := t.mem, ret := t.ret, statusRecord := t.statusRecord }

/-- R23: an odd input length: the last byte makes no difference to anything a BUF_ENC call does. -/
def Obligations.OddLastByteIsNotEncoded : Prop :=
  ∀ (s : State) (inBase k outBase : Nat) (f : Format) (xs : List Access),
    execBufEnc ⟨inBase, 2 * k + 1, outBase, f, xs⟩ s = execBufEnc ⟨inBase, 2 * k, outBase, f, xs⟩ s

/-- R24: a call whose input and output regions share a byte is refused, and only such a call is refused so. -/
def Obligations.OverlapIsRefused : Prop :=
  ∀ (s : State) (c : BufCall), s.cfg.wf = true →
    (execBufEnc c s = .refused .bufferOverlap ↔
      ∃ a, inRegion c.inBase (2 * (c.len / 2)) a ∧ inRegion c.outBase (c.len / 2) a) ∧
    (execBufDec c s = .refused .bufferOverlap ↔ ∃ a, inRegion c.inBase c.len a ∧ inRegion c.outBase (2 * c.len) a)

/-- R25: a call with regions apart, one of them not wholly inside memory the caller owns, is refused. That an overlap is
named first is the model's choice (log entry 9). -/
def Obligations.UndersizedBufferIsRefused : Prop :=
  ∀ (s : State) (c : BufCall), s.cfg.wf = true →
    ((¬ ∃ a, inRegion c.inBase (2 * (c.len / 2)) a ∧ inRegion c.outBase (c.len / 2) a) →
      (∃ a, (inRegion c.inBase (2 * (c.len / 2)) a ∨ inRegion c.outBase (c.len / 2) a) ∧ ¬ ownsByte s a) →
      execBufEnc c s = .refused .bufferSize) ∧
    ((¬ ∃ a, inRegion c.inBase c.len a ∧ inRegion c.outBase (2 * c.len) a) →
      (∃ a, (inRegion c.inBase c.len a ∨ inRegion c.outBase (2 * c.len) a) ∧ ¬ ownsByte s a) →
      execBufDec c s = .refused .bufferSize)

/-- R28: a call whose output region another agent reads or writes while it runs is refused. That a
broken size or overlap obligation is named first is the model's choice (log entry 9). -/
def Obligations.OutputRaceIsRefused : Prop :=
  ∀ (s : State) (c : BufCall) (x : Access), s.cfg.wf = true → x ∈ c.others →
    ((∀ a, inRegion c.inBase (2 * (c.len / 2)) a → ownsByte s a ∧ ¬ inRegion c.outBase (c.len / 2) a) →
      (∀ a, inRegion c.outBase (c.len / 2) a → ownsByte s a) → inRegion c.outBase (c.len / 2) x.addr →
      execBufEnc c s = .refused .outputRace) ∧
    ((∀ a, inRegion c.inBase c.len a → ownsByte s a ∧ ¬ inRegion c.outBase (2 * c.len) a) →
      (∀ a, inRegion c.outBase (2 * c.len) a → ownsByte s a) → inRegion c.outBase (2 * c.len) x.addr →
      execBufDec c s = .refused .outputRace)

/-- R28: other agents write memory while a call runs. A sample one of them writes is some drawn value, and its output is the
evaluation of the drawn value; every other sample is the one memory held before the call. Bytes outside the output
region that no agent writes are unchanged. What is returned and recorded is as without other agents (R21, R22), and
nothing else changes but the ports and the model's own count of draws (log entry 6). -/
def Obligations.DisturbedSampleIsDrawn : Prop :=
  ∀ (s : State) (c : BufCall), s.cfg.wf = true → Memory.wf s.mem = true →
    (CallerKeeps s c ⟨c.inBase, 2 * (c.len / 2)⟩ ⟨c.outBase, c.len / 2⟩ →
      ∃ (t : State) (d : Nat → Word16), execBufEnc c s = .next t ∧
        (∀ k, k < c.len / 2 → Memory.read t.mem (c.outBase + k) =
          (eval s.cfg (mkTW (mkDesc c.fmt .enc) (d k))).extractLsb' 0 8) ∧
        (∀ k, k < c.len / 2 → ¬ writtenBy c.others (c.inBase + 2 * k) → ¬ writtenBy c.others (c.inBase + 2 * k + 1) →
          d k = Memory.read16 s.plat.byteOrder s.mem (c.inBase + 2 * k)) ∧
        (∀ a, ¬ inRegion c.outBase (c.len / 2) a → ¬ writtenBy c.others a → Memory.read t.mem a = Memory.read s.mem a) ∧
        t.ret = some (if c.fmt = .alaw ∧ 0 < c.len / 2 then .unsupportedFormat else .ok) ∧
        t.statusRecord =
          (if c.fmt = .alaw ∧ 0 < c.len / 2 then { s.statusRecord with unsupportedFormat := true } else s.statusRecord) ∧
        t = { s with out := t.out, mem := t.mem, ret := t.ret, statusRecord := t.statusRecord, draws := t.draws }) ∧
    (CallerKeeps s c ⟨c.inBase, c.len⟩ ⟨c.outBase, 2 * c.len⟩ →
      ∃ (t : State) (d : Nat → Byte), execBufDec c s = .next t ∧
        (∀ k, k < c.len → Memory.read16 s.plat.byteOrder t.mem (c.outBase + 2 * k) =
          rwDout (eval s.cfg (mkTW (mkDesc c.fmt .dec) (0x00#8 ++ d k)))) ∧
        (∀ k, k < c.len → ¬ writtenBy c.others (c.inBase + k) → d k = Memory.read s.mem (c.inBase + k)) ∧
        (∀ a, ¬ inRegion c.outBase (2 * c.len) a → ¬ writtenBy c.others a → Memory.read t.mem a = Memory.read s.mem a) ∧
        t.ret = some (if c.fmt = .alaw ∧ 0 < c.len then .unsupportedFormat else .ok) ∧
        t.statusRecord =
          (if c.fmt = .alaw ∧ 0 < c.len then { s.statusRecord with unsupportedFormat := true } else s.statusRecord) ∧
        t = { s with out := t.out, mem := t.mem, ret := t.ret, statusRecord := t.statusRecord, draws := t.draws })

/-- R19: a buffer procedure repeated on unchanged inputs writes the same bytes: the second call completes and leaves memory as
the first left it. -/
def Obligations.BufferCallIsIdempotent : Prop :=
  ∀ (s : State) (c : BufCall), s.cfg.wf = true → Memory.wf s.mem = true → c.others = [] →
    (CallerKeeps s c ⟨c.inBase, 2 * (c.len / 2)⟩ ⟨c.outBase, c.len / 2⟩ →
      ∃ t u : State, execBufEnc c s = .next t ∧ execBufEnc c t = .next u ∧ u.mem = t.mem) ∧
    (CallerKeeps s c ⟨c.inBase, c.len⟩ ⟨c.outBase, 2 * c.len⟩ →
      ∃ t u : State, execBufDec c s = .next t ∧ execBufDec c t = .next u ∧ u.mem = t.mem)

/-- R26: under the preconditions any order of the samples gives the same end memory and the same returned status as the
ascending order a call takes. -/
def Obligations.SampleOrderIsUnobservable : Prop :=
  ∀ (s : State) (c : BufCall) (order : List Nat), Memory.wf s.mem = true → c.others = [] →
    (CallerKeeps s c ⟨c.inBase, 2 * (c.len / 2)⟩ ⟨c.outBase, c.len / 2⟩ → order.Perm (List.range (c.len / 2)) →
      (runSamples (encSample c) order (c.start s)).mem = (runSamples (encSample c) (List.range (c.len / 2)) (c.start s)).mem ∧
      (runSamples (encSample c) order (c.start s)).ret =
        (runSamples (encSample c) (List.range (c.len / 2)) (c.start s)).ret) ∧
    (CallerKeeps s c ⟨c.inBase, c.len⟩ ⟨c.outBase, 2 * c.len⟩ → order.Perm (List.range c.len) →
      (runSamples (decSample c) order (c.start s)).mem = (runSamples (decSample c) (List.range c.len) (c.start s)).mem ∧
      (runSamples (decSample c) order (c.start s)).ret = (runSamples (decSample c) (List.range c.len) (c.start s)).ret)

/-- R28, R91: two callers' calls, each of either procedure, which may share their input and whose outputs are apart from
everything else of either: one after the other, in either order, both complete, each returns the same status, and the
end memory and the host's record are the same. One owned set serves both callers (log entry 20). -/
def Obligations.CallsSharingInputsCommute : Prop :=
  ∀ (s : State) (p q : Procedure) (c d : BufCall), s.cfg.wf = true → Memory.wf s.mem = true → c.others = [] → d.others = [] →
    CallerKeeps s c (p.input c) (p.output c) → CallerKeeps s d (q.input d) (q.output d) →
    (∀ a, inRegion (p.output c).base (p.output c).size a →
      ¬ inRegion (q.output d).base (q.output d).size a ∧ ¬ inRegion (q.input d).base (q.input d).size a) →
    (∀ a, inRegion (q.output d).base (q.output d).size a → ¬ inRegion (p.input c).base (p.input c).size a) →
    ∃ t u t' u' : State, p.call c s = .next t ∧ q.call d t = .next u ∧ q.call d s = .next t' ∧ p.call c t' = .next u' ∧
      u.mem = u'.mem ∧ u.statusRecord = u'.statusRecord ∧ t.ret = u'.ret ∧ u.ret = t'.ret
end

