-- ==== Sys2Proof/Laws/Flags.lean ====
section
/-! SUPPORT. The laws of statuses and result words (R37, R80, R88). -/

namespace Sys2Proof.Machine

@[simp] theorem rwStatus_pack (r : EvalResult) : rwStatus r.pack = r.status.code := by
  exact Laws.high_append r.status.code r.dout

@[simp] theorem rwDout_pack (r : EvalResult) : rwDout r.pack = r.dout := by
  exact Laws.low_append r.status.code r.dout

/-- The result word of an A-law request (R81). -/
theorem pack_unsupportedFormat : (EvalResult.raised .unsupportedFormat).pack = 0x10000#18 := by decide

/-- The result word of a reserved descriptor (R82). -/
theorem pack_illegalOp : (EvalResult.raised .illegalOp).pack = 0x20000#18 := by decide

@[simp] theorem ofCode_code (st : Status) : Status.ofCode st.code = some st := by cases st <;> rfl

theorem code_ne_three (st : Status) : st.code ≠ 0b11#2 := by cases st <;> decide

theorem ofCode_eq_none (b : BitVec 2) : Status.ofCode b = none ↔ b = 0b11#2 := by revert b; decide

/-- A packed result is legal when a status other than OK comes with `dout` 0. -/
theorem legalResult_pack {r : EvalResult} (h : r.status ≠ .ok → r.dout = 0x0000#16) : legalResult r.pack := by
  refine ⟨by simpa using code_ne_three r.status, fun hs => ?_⟩
  rw [rwDout_pack]
  refine h fun e => hs ?_
  rw [rwStatus_pack, e]
  rfl

/-- The host's record holds what it has just noted. -/
theorem note_holds (rec : StatusRecord) (st : Status) : (rec.note st).holds st := by cases st <;> simp [StatusRecord.note, StatusRecord.holds]

/-- The record is never cleared (R88). -/
theorem holds_note {rec : StatusRecord} {old : Status} (h : rec.holds old) (st : Status) : (rec.note st).holds old := by
  cases old <;> cases st <;> simp_all [StatusRecord.note, StatusRecord.holds]

/-- An accumulated status is the old one or the new one (R21, R22). -/
theorem accumulate_cases (acc st : Status) : accumulate acc st = acc ∧ acc ≠ .ok ∨ accumulate acc st = st ∧ acc = .ok := by
  cases acc <;> simp [accumulate]

end Sys2Proof.Machine
end

