-- ==== Sys2Proof/Laws/State.lean ====
section
/-! SUPPORT. One lemma per field per update of State, so that no later proof unfolds a record update. -/

namespace Sys2Proof.Machine

variable (s : State) (r : EvalResult) (m : Memory) (d : Bool) (c : BufCall)

@[simp] theorem drive_cfg : (s.drive r).cfg = s.cfg := rfl
@[simp] theorem drive_plat : (s.drive r).plat = s.plat := rfl
@[simp] theorem drive_out : (s.drive r).out = some r.pack := rfl
@[simp] theorem drive_statusRecord : (s.drive r).statusRecord = s.statusRecord.note r.status := rfl
@[simp] theorem drive_cmds : (s.drive r).cmds = s.cmds := rfl
@[simp] theorem drive_mem : (s.drive r).mem = s.mem := rfl
@[simp] theorem drive_owned : (s.drive r).owned = s.owned := rfl
@[simp] theorem drive_lastRead : (s.drive r).lastRead = s.lastRead := rfl
@[simp] theorem drive_ret : (s.drive r).ret = s.ret := rfl
@[simp] theorem drive_draws : (s.drive r).draws = s.draws := rfl

@[simp] theorem finishSample_cfg : (s.finishSample r m d).cfg = s.cfg := rfl
@[simp] theorem finishSample_plat : (s.finishSample r m d).plat = s.plat := rfl
@[simp] theorem finishSample_out : (s.finishSample r m d).out = some r.pack := rfl
@[simp] theorem finishSample_statusRecord : (s.finishSample r m d).statusRecord = s.statusRecord.note r.status := rfl
@[simp] theorem finishSample_cmds : (s.finishSample r m d).cmds = s.cmds := rfl
@[simp] theorem finishSample_mem : (s.finishSample r m d).mem = m := rfl
@[simp] theorem finishSample_owned : (s.finishSample r m d).owned = s.owned := rfl
@[simp] theorem finishSample_lastRead : (s.finishSample r m d).lastRead = s.lastRead := rfl
@[simp] theorem finishSample_ret : (s.finishSample r m d).ret = some (accumulate (s.ret.getD .ok) r.status) := rfl
@[simp] theorem finishSample_draws : (s.finishSample r m d).draws = s.draws + d.toNat := rfl

@[simp] theorem start_cfg : (c.start s).cfg = s.cfg := rfl
@[simp] theorem start_plat : (c.start s).plat = s.plat := rfl
@[simp] theorem start_out : (c.start s).out = s.out := rfl
@[simp] theorem start_statusRecord : (c.start s).statusRecord = s.statusRecord := rfl
@[simp] theorem start_cmds : (c.start s).cmds = s.cmds := rfl
@[simp] theorem start_mem : (c.start s).mem = c.others.foldl Access.apply s.mem := rfl
@[simp] theorem start_owned : (c.start s).owned = s.owned := rfl
@[simp] theorem start_lastRead : (c.start s).lastRead = s.lastRead := rfl
@[simp] theorem start_ret : (c.start s).ret = some .ok := rfl
@[simp] theorem start_draws : (c.start s).draws = s.draws := rfl

end Sys2Proof.Machine
end

