-- ==== Sys2Proof/Laws/Eval.lean ====
section
/-! SUPPORT. One evaluation (R14): exec completes with the pure result, and everything that result can be. -/

namespace Sys2Proof.Machine

/-- R5: under a well-formed record the check passes an outcome on. -/
theorem checked_of_wf {s : State} (h : s.cfg.wf = true) (o : Host.Outcome State Fault Refusal) : s.checked o = o := if_pos h

/-- R5: an ill-formed record is refused, whatever would have come. -/
theorem checked_of_illFormed {s : State} (h : s.cfg.wf = false) (o : Host.Outcome State Fault Refusal) :
    s.checked o = .refused .cfgIllFormed := if_neg (by simp [h])

/-- Everything a checked outcome can be when it is a next state. -/
theorem checked_cases {s t : State} {o : Host.Outcome State Fault Refusal} (h : s.checked o = .next t) :
    s.cfg.wf = true ∧ o = .next t := by
  cases hw : s.cfg.wf with
  | true => exact ⟨rfl, (checked_of_wf hw o).symm.trans h⟩
  | false => rw [checked_of_illFormed hw] at h; cases h

/-- Every row's meaning completes the evaluation with the row's result: the one spec lemma of `exec`. -/
theorem exec_eq_complete (i : Instr) (s : State) : exec i s = s.complete (resultOf s.cfg i) := by cases i <;> rfl

/-- Under a well-formed record every transaction completes, and only the ports and the record change (R84, R87). -/
theorem exec_next {s : State} (h : s.cfg.wf = true) (i : Instr) : exec i s = .next (s.drive (resultOf s.cfg i)) := by
  rw [exec_eq_complete, State.complete, checked_of_wf h]

/-- Everything a transaction can do when it answers a next state. -/
theorem exec_cases {i : Instr} {s t : State} (h : exec i s = .next t) :
    s.cfg.wf = true ∧ t = s.drive (resultOf s.cfg i) := by
  rw [exec_eq_complete] at h
  obtain ⟨hw, h⟩ := checked_cases h
  injection h with h
  exact ⟨hw, h.symm⟩

/-- R5: a machine whose record is not well formed is refused. -/
theorem exec_illFormed {s : State} (h : s.cfg.wf = false) (i : Instr) : exec i s = .refused .cfgIllFormed := by
  rw [exec_eq_complete, State.complete, checked_of_illFormed h]

/-- R80: a status other than OK comes with `dout` 0. -/
theorem resultOf_dout {cfg : Cfg} {i : Instr} (h : (resultOf cfg i).status ≠ .ok) : (resultOf cfg i).dout = 0x0000#16 := by
  cases i <;> first | rfl | exact absurd rfl h

/-- Every evaluation's result word is one R80 allows. -/
theorem legalResult_resultOf (cfg : Cfg) (i : Instr) : legalResult (resultOf cfg i).pack := legalResult_pack resultOf_dout

end Sys2Proof.Machine
end

