-- ==== Sys2Proof/Laws/Memory.lean ====
section
/-! SUPPORT. The laws of host memory: what a read gives after a write, that every write keeps the canonical form, and that two
canonical memories that read alike are equal. -/

namespace Sys2Proof.Machine

/-- Every entry of a canonical memory's tail lies above its head. -/
theorem Memory.wf_cons {k : Nat} {v : Byte} {m : Memory} :
    Memory.wf ((k, v) :: m) = true ↔ v ≠ Memory.unlisted ∧ (∀ c ∈ m, k < c.1) ∧ Memory.wf m = true := by
  simp [Memory.wf, and_assoc]

theorem Memory.wf_nil : Memory.wf [] = true := rfl

/-- A byte below every entry is unlisted. -/
theorem Memory.read_below {m : Memory} {a : Nat} (h : ∀ c ∈ m, a < c.1) : Memory.read m a = Memory.unlisted := by
  induction m with
  | nil => rfl
  | cons c m ih =>
    have hc := h c (by simp)
    obtain ⟨k, v⟩ := c
    rw [Memory.read, if_neg (by simp at hc; omega)]
    exact ih fun c hm => h c (by simp [hm])

/-- A listed entry of a written memory is an old entry or the written byte. -/
theorem Memory.mem_write {m : Memory} {a : Nat} {b : Byte} {c : Host.Cell} (h : c ∈ Memory.write m a b) :
    c ∈ m ∨ c = (a, b) := by
  induction m with
  | nil =>
    rw [Memory.write] at h
    split at h <;> simp_all
  | cons e m ih =>
    obtain ⟨k, v⟩ := e
    rw [Memory.write] at h
    split at h
    · split at h <;> simp_all
      tauto
    · split at h
      · split at h <;> simp_all
        tauto
      · rcases List.mem_cons.1 h with h | h
        · simp [h]
        · rcases ih h with h | h <;> simp [h]

/-- A write keeps the canonical form. -/
theorem Memory.wf_write {m : Memory} (h : Memory.wf m = true) (a : Nat) (b : Byte) :
    Memory.wf (Memory.write m a b) = true := by
  induction m with
  | nil =>
    rw [Memory.write]
    split
    · rfl
    · simp_all [Memory.wf]
  | cons e m ih =>
    obtain ⟨k, v⟩ := e
    obtain ⟨hv, hk, hm⟩ := Memory.wf_cons.1 h
    rw [Memory.write]
    split
    next hlt =>
      split
      · exact h
      next hb =>
        refine Memory.wf_cons.2 ⟨hb, ?_, h⟩
        intro c hc
        rcases List.mem_cons.1 hc with rfl | hc
        · exact hlt
        · exact hlt.trans (hk c hc)
    next hlt =>
      split
      next heq =>
        split
        · exact hm
        next hb => exact Memory.wf_cons.2 ⟨hb, fun c hc => heq ▸ hk c hc, hm⟩
      next hne =>
        refine Memory.wf_cons.2 ⟨hv, ?_, ih hm⟩
        intro c hc
        rcases Memory.mem_write hc with hc | rfl
        · exact hk c hc
        · simp only; omega

/-- What a read gives after a write. -/
theorem Memory.read_write {m : Memory} (h : Memory.wf m = true) (a : Nat) (b : Byte) (x : Nat) :
    Memory.read (Memory.write m a b) x = if x = a then b else Memory.read m x := by
  induction m with
  | nil =>
    rw [Memory.write]
    split <;> simp_all [Memory.read]
  | cons e m ih =>
    obtain ⟨k, v⟩ := e
    obtain ⟨_, hk, hm⟩ := Memory.wf_cons.1 h
    rw [Memory.write]
    split
    next hlt =>
      split
      next hb =>
        split
        next hx =>
          subst hx hb
          exact Memory.read_below fun c hc => by
            rcases List.mem_cons.1 hc with rfl | hc
            · exact hlt
            · exact hlt.trans (hk c hc)
        · rfl
      · rw [Memory.read]
    next hlt =>
      split
      next heq =>
        subst heq
        split
        next hb =>
          split
          next hx => subst hx hb; exact Memory.read_below hk
          next hx => rw [Memory.read, if_neg hx]
        next hb =>
          rw [Memory.read, Memory.read]
          split <;> rfl
      next hne =>
        rw [Memory.read, Memory.read, ih hm]
        by_cases hxk : x = k
        · rw [if_pos hxk, if_pos hxk, if_neg (by omega)]
        · rw [if_neg hxk, if_neg hxk]

/-- Two canonical memories that read alike at every address are the same list. -/
theorem Memory.ext_read {m n : Memory} (hm : Memory.wf m = true) (hn : Memory.wf n = true)
    (h : ∀ a, Memory.read m a = Memory.read n a) : m = n := by
  induction m generalizing n with
  | nil =>
    cases n with
    | nil => rfl
    | cons e n =>
      obtain ⟨k, v⟩ := e
      have := h k
      simp [Memory.read] at this
      exact absurd this.symm (Memory.wf_cons.1 hn).1
  | cons e m ih =>
    obtain ⟨k, v⟩ := e
    obtain ⟨hv, hk, hm'⟩ := Memory.wf_cons.1 hm
    cases n with
    | nil =>
      have := h k
      simp [Memory.read] at this
      exact absurd this hv
    | cons e' n =>
      obtain ⟨k', v'⟩ := e'
      obtain ⟨hv', hk', hn'⟩ := Memory.wf_cons.1 hn
      have below : ∀ {p q : Nat} {u w : Byte} {l r : Memory}, u ≠ Memory.unlisted → (∀ c ∈ r, q < c.1) →
          (∀ a, Memory.read ((p, u) :: l) a = Memory.read ((q, w) :: r) a) → ¬ p < q := by
        intro p q u w l r hu hr hh hlt
        have h1 := hh p
        have h2 : Memory.read ((q, w) :: r) p = Memory.unlisted := Memory.read_below fun c hc => by
          rcases List.mem_cons.1 hc with rfl | hc
          · exact hlt
          · exact hlt.trans (hr c hc)
        rw [h2, Memory.read, if_pos rfl] at h1
        exact hu h1
      have hkk : k = k' := by
        have h1 := below hv hk' h
        have h2 := below hv' hk (fun a => (h a).symm)
        omega
      subst hkk
      have hvv : v = v' := by
        have := h k
        simpa [Memory.read] using this
      subst hvv
      congr 1
      refine ih hm' hn' fun a => ?_
      by_cases ha : a = k
      · subst ha
        rw [Memory.read_below hk, Memory.read_below hk']
      · have := h a
        simpa [Memory.read, ha] using this

/-- A sample write keeps the canonical form (R17). -/
theorem Memory.wf_write16 (o : ByteOrder) {m : Memory} (h : Memory.wf m = true) (a : Nat) (v : Word16) :
    Memory.wf (Memory.write16 o m a v) = true := by
  cases o <;> exact Memory.wf_write (Memory.wf_write h _ _) _ _

/-- The first of the two bytes a sample write leaves (R17). -/
def firstByte (o : ByteOrder) (v : Word16) : Byte :=
  match o with
  | .little => v.extractLsb' 0 8
  | .big => v.extractLsb' 8 8

/-- The second of the two bytes a sample write leaves (R17). -/
def secondByte (o : ByteOrder) (v : Word16) : Byte :=
  match o with
  | .little => v.extractLsb' 8 8
  | .big => v.extractLsb' 0 8

/-- A sample write is two byte writes (R17, R18). -/
theorem Memory.write16_eq (o : ByteOrder) (m : Memory) (a : Nat) (v : Word16) :
    Memory.write16 o m a v = Memory.write (Memory.write m a (firstByte o v)) (a + 1) (secondByte o v) := by
  cases o <;> rfl

/-- What a byte read gives after a sample write (R17). -/
theorem Memory.read_write16 (o : ByteOrder) {m : Memory} (h : Memory.wf m = true) (a : Nat) (v : Word16) (x : Nat) :
    Memory.read (Memory.write16 o m a v) x =
      if x = a then firstByte o v else if x = a + 1 then secondByte o v else Memory.read m x := by
  rw [Memory.write16_eq, Memory.read_write (Memory.wf_write h _ _), Memory.read_write h]
  split_ifs <;> first | rfl | omega

/-- A sample read depends on its two bytes only (R17). -/
theorem Memory.read16_congr (o : ByteOrder) {m n : Memory} {a : Nat} (h0 : Memory.read m a = Memory.read n a)
    (h1 : Memory.read m (a + 1) = Memory.read n (a + 1)) : Memory.read16 o m a = Memory.read16 o n a := by
  cases o <;> simp [Memory.read16, h0, h1]

/-- A sample reads back as it was written (R17). -/
theorem Memory.read16_write16 (o : ByteOrder) {m : Memory} (h : Memory.wf m = true) (a : Nat) (v : Word16) :
    Memory.read16 o (Memory.write16 o m a v) a = v := by
  have h0 : Memory.read (Memory.write16 o m a v) a = firstByte o v := by rw [Memory.read_write16 o h, if_pos rfl]
  have h1 : Memory.read (Memory.write16 o m a v) (a + 1) = secondByte o v := by
    rw [Memory.read_write16 o h, if_neg (by omega), if_pos rfl]
  cases o with
  | little => simp only [Memory.read16, h0, h1]; exact Laws.append_extract (m := 8) (n := 8) v
  | big => simp only [Memory.read16, h0, h1]; exact Laws.append_extract (m := 8) (n := 8) v

/-- A listed entry after a sample write is an old one or one of its two bytes. -/
theorem Memory.mem_write16 {o : ByteOrder} {m : Memory} {a : Nat} {v : Word16} {c : Host.Cell}
    (h : c ∈ Memory.write16 o m a v) : c ∈ m ∨ c.1 = a ∨ c.1 = a + 1 := by
  rw [Memory.write16_eq] at h
  rcases Memory.mem_write h with h | rfl
  · rcases Memory.mem_write h with h | rfl <;> simp [*]
  · simp

/-- Another agent's access keeps the canonical form (R28). -/
theorem Access.wf_apply {m : Memory} (h : Memory.wf m = true) (x : Access) : Memory.wf (Access.apply m x) = true := by
  cases x with
  | read a => exact h
  | write a b => exact Memory.wf_write h a b

/-- Other agents' accesses keep the canonical form (R28). -/
theorem Access.wf_applyAll {m : Memory} (h : Memory.wf m = true) (xs : List Access) :
    Memory.wf (xs.foldl Access.apply m) = true := by
  induction xs generalizing m with
  | nil => exact h
  | cons x xs ih => exact ih (Access.wf_apply h x)

/-- A byte no other agent writes reads as before (R28). -/
theorem Access.read_applyAll {m : Memory} (h : Memory.wf m = true) (xs : List Access) (a : Nat)
    (ha : ∀ x ∈ xs, ∀ b, x ≠ .write a b) : Memory.read (xs.foldl Access.apply m) a = Memory.read m a := by
  induction xs generalizing m with
  | nil => rfl
  | cons x xs ih =>
    rw [List.foldl_cons, ih (Access.wf_apply h x) fun y hy => ha y (by simp [hy])]
    cases x with
    | read k => rfl
    | write k b =>
      have hne : a ≠ k := fun e => ha (.write k b) (by simp) b (by rw [e])
      rw [Access.apply, Memory.read_write h, if_neg hne]

/-- A listed entry after other agents' accesses is an old one or at an address one of them wrote. -/
theorem Access.mem_applyAll {m : Memory} (xs : List Access) {c : Host.Cell} (h : c ∈ xs.foldl Access.apply m) :
    c ∈ m ∨ ∃ x ∈ xs, x.addr = c.1 := by
  induction xs generalizing m with
  | nil => exact .inl h
  | cons x xs ih =>
    rcases ih h with h | ⟨y, hy, e⟩
    · cases x with
      | read a => exact .inl h
      | write a b =>
        rcases Memory.mem_write h with h | rfl
        · exact .inl h
        · exact .inr ⟨.write a b, by simp, rfl⟩
    · exact .inr ⟨y, by simp [hy], e⟩

end Sys2Proof.Machine
end

