-- ==== Sys2Proof/Laws/PerInstr.lean ====
section
/-! SUPPORT. Statements made for every instruction as syntax: one lemma per constructor. -/

/-- RowEncoding (R34, R39): the instruction's transaction word falls in the instruction's own row of the opcode table, that row
stands in the table, and the word carries the instruction's operand. -/
def Sys2Proof.Laws.RowEncoding.Statement (i : Sys2Proof.Instr) : Prop :=
  i.row ∈ Sys2Proof.opcodeTable ∧ i.row.accepts (Sys2Proof.encode i) = true ∧ Sys2Proof.twDin (Sys2Proof.encode i) = i.din

namespace Sys2Proof.Laws

/-- The low 16 bits of a transaction word are its operand, whatever the descriptor. -/
theorem twDin_mkTW (d : Desc) (din : Word16) : twDin (mkTW d din) = din := low_append d din

/-- Bits 18 to 16 of a transaction word are its descriptor, whatever the operand. -/
theorem twDesc_mkTW (d : Desc) (din : Word16) : twDesc (mkTW d din) = d := high_append d din

/-- The table's mask keeps the descriptor and clears the operand. -/
theorem mkTW_and_mask (d : Desc) (din : Word16) : mkTW d din &&& 0x70000#19 = mkTW d 0x0000#16 := by
  have e : (0x70000#19 : TW) = (0b111#3 ++ 0x0000#16 : BitVec 19) := by decide
  have ones : ∀ d : Desc, d &&& 0b111#3 = d := by decide
  have app := append_and d 0b111#3 din 0x0000#16
  rw [ones, BitVec.and_zero] at app
  rw [e]
  exact app

/-- An instruction whose row's pattern is its descriptor with operand 0 lies in that row. -/
theorem rowEncoding_of_row {i : Instr} (hm : i.row ∈ opcodeTable) (hk : i.row.mask = 0x70000#19)
    (hp : i.row.pattern = mkTW i.desc 0x0000#16) : RowEncoding.Statement i :=
  ⟨hm, by rw [OpcodeRow.accepts, decide_eq_true_eq, hk, hp]; exact mkTW_and_mask _ _, twDin_mkTW _ _⟩

end Sys2Proof.Laws

theorem Sys2Proof.Laws.RowEncoding.ulawEnc (din : Sys2Proof.Word16) : Statement (.ulawEnc din) :=
  rowEncoding_of_row (by simp [Instr.row, opcodeTable]) rfl (by simp only [Instr.row, Instr.desc]; decide)

theorem Sys2Proof.Laws.RowEncoding.ulawDec (din : Sys2Proof.Word16) : Statement (.ulawDec din) :=
  rowEncoding_of_row (by simp [Instr.row, opcodeTable]) rfl (by simp only [Instr.row, Instr.desc]; decide)

theorem Sys2Proof.Laws.RowEncoding.segSearch (din : Sys2Proof.Word16) : Statement (.segSearch din) :=
  rowEncoding_of_row (by simp [Instr.row, opcodeTable]) rfl (by simp only [Instr.row, Instr.desc]; decide)

theorem Sys2Proof.Laws.RowEncoding.reserved011 (din : Sys2Proof.Word16) : Statement (.reserved011 din) :=
  rowEncoding_of_row (by simp [Instr.row, opcodeTable]) rfl (by simp only [Instr.row, Instr.desc]; decide)

theorem Sys2Proof.Laws.RowEncoding.alawEnc (din : Sys2Proof.Word16) : Statement (.alawEnc din) :=
  rowEncoding_of_row (by simp [Instr.row, opcodeTable]) rfl (by simp only [Instr.row, Instr.desc]; decide)

theorem Sys2Proof.Laws.RowEncoding.alawDec (din : Sys2Proof.Word16) : Statement (.alawDec din) :=
  rowEncoding_of_row (by simp [Instr.row, opcodeTable]) rfl (by simp only [Instr.row, Instr.desc]; decide)

theorem Sys2Proof.Laws.RowEncoding.reserved110 (din : Sys2Proof.Word16) : Statement (.reserved110 din) :=
  rowEncoding_of_row (by simp [Instr.row, opcodeTable]) rfl (by simp only [Instr.row, Instr.desc]; decide)

theorem Sys2Proof.Laws.RowEncoding.reserved111 (din : Sys2Proof.Word16) : Statement (.reserved111 din) :=
  rowEncoding_of_row (by simp [Instr.row, opcodeTable]) rfl (by simp only [Instr.row, Instr.desc]; decide)
end

