-- ==== Sys2Proof/Laws/Buffers.lean ====
section
/-! SUPPORT. The host buffer procedures: everything a call can do, and the induction over its samples, packaged once. -/

namespace Sys2Proof.Machine

/-- Everything a guarded buffer call can do when it answers a next state. -/
theorem guarded_cases {c : BufCall} {inR outR : Region} {body : State → State} {s t : State}
    (h : c.guarded inR outR body s = .next t) :
    s.cfg.wf = true ∧ inR.overlaps outR = false ∧ s.ownsRegion inR = true ∧ s.ownsRegion outR = true ∧
      (∀ x ∈ c.others, outR.has x.addr = false) ∧ (∀ x ∈ c.others, s.addressExists x.addr = true) ∧
      t = body (c.start s) := by
  obtain ⟨hw, h⟩ := checked_cases h
  split at h
  · cases h
  split at h
  · cases h
  split at h
  · cases h
  split at h
  next h2 h3 h4 h5 =>
    injection h with h
    refine ⟨hw, by simpa using h2, ?_, ?_, by simpa using h4, by simpa using h5, h.symm⟩
    · cases e : s.ownsRegion inR <;> simp [e] at h3 ⊢
    · cases e : s.ownsRegion outR <;> simp [e] at h3 ⊢
  · cases h

/-- A buffer call whose preconditions hold completes. -/
theorem guarded_next {c : BufCall} {inR outR : Region} {body : State → State} {s : State} (h1 : s.cfg.wf = true)
    (h2 : inR.overlaps outR = false) (h3 : s.ownsRegion inR = true) (h4 : s.ownsRegion outR = true)
    (h5 : ∀ x ∈ c.others, outR.has x.addr = false) (h6 : ∀ x ∈ c.others, s.addressExists x.addr = true) :
    c.guarded inR outR body s = .next (body (c.start s)) := by
  unfold BufCall.guarded
  rw [checked_of_wf h1, if_neg (by simp [h2]), if_neg (by simp [h3, h4]),
    if_neg (by simpa using h5), if_pos (by simpa using h6)]

/-- The caller owns a region exactly when it owns every byte of it (R25). -/
theorem ownsRegion_iff (s : State) (r : Region) : s.ownsRegion r = true ↔ ∀ a, r.has a = true → s.owns a = true := by
  simp only [State.ownsRegion, List.all_eq_true, List.mem_range, Region.has, Bool.and_eq_true, decide_eq_true_eq]
  constructor
  · rintro h a ⟨h1, h2⟩
    have := h (a - r.base) (by omega)
    rwa [Nat.add_sub_cancel' h1] at this
  · intro h k hk
    exact h _ ⟨by omega, by omega⟩

/-- Two regions overlap exactly when they share a byte (R24). -/
theorem overlaps_iff (r q : Region) : r.overlaps q = true ↔ ∃ a, r.has a = true ∧ q.has a = true := by
  simp only [Region.overlaps, Region.has, Bool.and_eq_true, decide_eq_true_eq]
  constructor
  · rintro ⟨⟨⟨h1, h2⟩, h3⟩, h4⟩
    rcases Nat.le_total r.base q.base with h | h
    · exact ⟨q.base, by omega, by omega⟩
    · exact ⟨r.base, by omega, by omega⟩
  · rintro ⟨a, h1, h2⟩
    omega

/-- A property every turn keeps holds after all of a call's samples: the induction over the samples. -/
theorem runSamples_induction {P : State → Prop} {turn : State → Nat → State} (order : List Nat) {s : State} (h0 : P s)
    (hs : ∀ u, ∀ i ∈ order, P u → P (turn u i)) : P (runSamples turn order s) := by
  unfold runSamples
  induction order generalizing s with
  | nil => exact h0
  | cons i order ih =>
    exact ih (hs s i (by simp) h0) fun u j hj hu => hs u j (by simp [hj]) hu

theorem runSamples_append (turn : State → Nat → State) (a b : List Nat) (s : State) :
    runSamples turn (a ++ b) s = runSamples turn b (runSamples turn a s) := List.foldl_append ..

theorem runSamples_nil (turn : State → Nat → State) (s : State) : runSamples turn [] s = s := rfl

theorem runSamples_cons (turn : State → Nat → State) (i : Nat) (l : List Nat) (s : State) :
    runSamples turn (i :: l) s = runSamples turn l (turn s i) := rfl

/-- What a turn of either loop leaves alone: all but the ports, the record, memory, the returned status and the draws. -/
structure SameHost (s t : State) : Prop where
  cfg : t.cfg = s.cfg
  plat : t.plat = s.plat
  cmds : t.cmds = s.cmds
  owned : t.owned = s.owned
  lastRead : t.lastRead = s.lastRead

theorem encSample_sameHost (c : BufCall) (s : State) (i : Nat) : SameHost s (encSample c s i) := ⟨rfl, rfl, rfl, rfl, rfl⟩

theorem decSample_sameHost (c : BufCall) (s : State) (i : Nat) : SameHost s (decSample c s i) := ⟨rfl, rfl, rfl, rfl, rfl⟩

theorem SameHost.trans {s t u : State} (h : SameHost s t) (k : SameHost t u) : SameHost s u :=
  ⟨k.cfg.trans h.cfg, k.plat.trans h.plat, k.cmds.trans h.cmds, k.owned.trans h.owned, k.lastRead.trans h.lastRead⟩

theorem SameHost.refl (s : State) : SameHost s s := ⟨rfl, rfl, rfl, rfl, rfl⟩

theorem runSamples_enc_sameHost (c : BufCall) (order : List Nat) (s : State) : SameHost s (runSamples (encSample c) order s) :=
  runSamples_induction (P := SameHost s) order (.refl s) fun u i _ h => h.trans (encSample_sameHost c u i)

theorem runSamples_dec_sameHost (c : BufCall) (order : List Nat) (s : State) : SameHost s (runSamples (decSample c) order s) :=
  runSamples_induction (P := SameHost s) order (.refl s) fun u i _ h => h.trans (decSample_sameHost c u i)

/-- A sample's status is its format's (R76, R80). -/
theorem encSampleResult_status (cfg : Cfg) (f : Format) (w : Word16) :
    (encSampleResult cfg f w).status = if f = .alaw then .unsupportedFormat else .ok := by
  rw [encSampleResult, decode, Laws.twDesc_mkTW, Laws.twDin_mkTW]
  cases f <;> rfl

/-- A code's status is its format's (R77, R80). -/
theorem decSampleResult_status (cfg : Cfg) (f : Format) (b : Byte) :
    (decSampleResult cfg f b).status = if f = .alaw then .unsupportedFormat else .ok := by
  rw [decSampleResult, decode, Laws.twDesc_mkTW, Laws.twDin_mkTW]
  cases f <;> rfl

/-- What a loop of either procedure returns and records after any samples, with or without other agents at work (R21, R22, R88):
`turn` is `encSample c` or `decSample c`, with `res`, `out` and `drawn` its result, its memory and whether it draws. -/
theorem runSamples_status (f : Format) {turn : State → Nat → State} {res : State → Nat → EvalResult} {out : State → Nat → Memory}
    {drawn : Nat → Bool} (ht : ∀ s i, turn s i = s.finishSample (res s i) (out s i) (drawn i))
    (hr : ∀ s i, (res s i).status = if f = .alaw then .unsupportedFormat else .ok) (order : List Nat) (s : State)
    (h : s.ret = some .ok ∨ s.ret = some .unsupportedFormat ∧ f = .alaw) :
    (runSamples turn order s).ret = (if f = .alaw ∧ 0 < order.length then some .unsupportedFormat else s.ret) ∧
      (runSamples turn order s).statusRecord =
        (if f = .alaw ∧ 0 < order.length then { s.statusRecord with unsupportedFormat := true } else s.statusRecord) := by
  induction order generalizing s with
  | nil => simp [runSamples_nil]
  | cons i order ih =>
    have hret : (turn s i).ret = if f = .alaw then some .unsupportedFormat else s.ret := by
      rw [ht, finishSample_ret, hr]
      rcases h with h | ⟨h, hf⟩ <;> rw [h] <;> simp [accumulate] <;> split_ifs <;> simp_all
    have hrec : (turn s i).statusRecord =
        if f = .alaw then { s.statusRecord with unsupportedFormat := true } else s.statusRecord := by
      rw [ht, finishSample_statusRecord, hr]
      split <;> rfl
    have := ih (turn s i) (by rw [hret]; split_ifs with hf <;> simp_all)
    rw [runSamples_cons, this.1, this.2, hret, hrec]
    by_cases hf : f = .alaw <;> simp [hf]

theorem start_sameHost (c : BufCall) (s : State) : SameHost s (c.start s) := ⟨rfl, rfl, rfl, rfl, rfl⟩

/-- A call that answers a next state leaves the constants, the platform, the pending actions, the ownership and the host's
last read as they were. -/
theorem execBufEnc_sameHost {c : BufCall} {s t : State} (h : execBufEnc c s = .next t) : SameHost s t := by
  obtain ⟨_, _, _, _, _, _, rfl⟩ := guarded_cases h
  exact (start_sameHost c s).trans (runSamples_enc_sameHost c _ _)

theorem execBufDec_sameHost {c : BufCall} {s t : State} (h : execBufDec c s = .next t) : SameHost s t := by
  obtain ⟨_, _, _, _, _, _, rfl⟩ := guarded_cases h
  exact (start_sameHost c s).trans (runSamples_dec_sameHost c _ _)

/-- The caller's obligations of R98, from the model's own checks. -/
theorem callerKeeps_of_checks {s : State} {c : BufCall} {inR outR : Region} (h1 : inR.overlaps outR = false)
    (h2 : s.ownsRegion inR = true) (h3 : s.ownsRegion outR = true) (h4 : c.others.all (fun x => !outR.has x.addr) = true)
    (h5 : c.others.all (fun x => s.addressExists x.addr) = true) : CallerKeeps s c inR outR where
  apart a ha := by
    cases e : outR.has a with
    | false => rfl
    | true =>
      have := (overlaps_iff inR outR).2 ⟨a, ha, e⟩
      rw [h1] at this
      cases this
  ownsIn := (ownsRegion_iff s inR).1 h2
  ownsOut := (ownsRegion_iff s outR).1 h3
  noRace x hx := by simpa using List.all_eq_true.1 h4 x hx
  othersExist x hx := List.all_eq_true.1 h5 x hx

/-- A call that keeps the caller's obligations completes. -/
theorem guarded_of_callerKeeps {s : State} {c : BufCall} {inR outR : Region} {body : State → State} (hw : s.cfg.wf = true)
    (h : CallerKeeps s c inR outR) : c.guarded inR outR body s = .next (body (c.start s)) := by
  refine guarded_next hw ?_ ((ownsRegion_iff _ _).2 h.ownsIn) ((ownsRegion_iff _ _).2 h.ownsOut) h.noRace h.othersExist
  cases e : inR.overlaps outR with
  | false => rfl
  | true =>
    obtain ⟨a, h1, h2⟩ := (overlaps_iff _ _).1 e
    rw [h.apart a h1] at h2
    cases h2

/-- Everything the memory of `BUF_ENC`'s loop can be after distinct samples of a call with its regions apart: each output byte is
the evaluation of some input, which is the one in memory where no other agent writes it, and no other byte changes. -/
theorem encLoop_memory (c : BufCall) (n : Nat)
    (apart : ∀ i < n, ∀ j < n, c.outBase + i ≠ c.inBase + 2 * j ∧ c.outBase + i ≠ c.inBase + 2 * j + 1) (order : List Nat)
    (s : State) (hw : Memory.wf s.mem = true) (hd : order.Nodup) (hb : ∀ i ∈ order, i < n) :
    ∃ d : Nat → Word16,
      Memory.wf (runSamples (encSample c) order s).mem = true ∧
      (∀ i ∈ order, Memory.read (runSamples (encSample c) order s).mem (c.outBase + i) =
        (encSampleResult s.cfg c.fmt (d i)).dout.extractLsb' 0 8) ∧
      (∀ a, (∀ i ∈ order, a ≠ c.outBase + i) →
        Memory.read (runSamples (encSample c) order s).mem a = Memory.read s.mem a) ∧
      ∀ i ∈ order, c.disturbed ⟨c.inBase + 2 * i, 2⟩ = false →
        d i = Memory.read16 s.plat.byteOrder s.mem (c.inBase + 2 * i) := by
  induction order generalizing s with
  | nil => exact ⟨fun _ => 0, hw, by simp, fun _ _ => rfl, by simp⟩
  | cons i order ih =>
    rw [List.nodup_cons] at hd
    have hw1 : Memory.wf (encSample c s i).mem = true := Memory.wf_write hw _ _
    obtain ⟨d, h1, h2, h3, h4⟩ := ih (encSample c s i) hw1 hd.2 (fun j hj => hb j (by simp [hj]))
    have rd : ∀ a, Memory.read (encSample c s i).mem a = if a = c.outBase + i then
        (encSampleResult s.cfg c.fmt (encInput c s i)).dout.extractLsb' 0 8 else Memory.read s.mem a := Memory.read_write hw _ _
    have other : ∀ j ∈ order, j ≠ i := fun j hj e => hd.1 (e ▸ hj)
    refine ⟨fun j => if j = i then encInput c s i else d j, h1, ?_, ?_, ?_⟩
    · intro j hj
      rcases List.mem_cons.1 hj with rfl | hj
      · rw [runSamples_cons, h3 _ (fun k hk e => other k hk (by omega)), rd, if_pos rfl]
        simp
      · rw [runSamples_cons, h2 j hj]
        simp only [if_neg (other j hj)]
        rfl
    · intro a ha
      rw [runSamples_cons, h3 a (fun k hk => ha k (by simp [hk])), rd, if_neg (ha i (by simp))]
    · intro j hj hu
      rcases List.mem_cons.1 hj with rfl | hj
      · simp only [if_true]
        unfold encInput
        rw [if_neg (by simp [hu])]
      · simp only [if_neg (other j hj)]
        rw [h4 j hj hu]
        have := apart i (hb i (by simp)) j (hb j (by simp [hj]))
        show Memory.read16 s.plat.byteOrder _ _ = _
        apply Memory.read16_congr
        · rw [rd, if_neg (by omega)]
        · rw [rd, if_neg (by omega)]

/-- Everything the memory of `BUF_DEC`'s loop can be after distinct codes of a call with its regions apart. -/
theorem decLoop_memory (c : BufCall) (n : Nat)
    (apart : ∀ i < n, ∀ j < n, c.outBase + 2 * i ≠ c.inBase + j ∧ c.outBase + 2 * i + 1 ≠ c.inBase + j) (order : List Nat)
    (s : State) (hw : Memory.wf s.mem = true) (hd : order.Nodup) (hb : ∀ i ∈ order, i < n) :
    ∃ d : Nat → Byte,
      Memory.wf (runSamples (decSample c) order s).mem = true ∧
      (∀ i ∈ order, Memory.read16 s.plat.byteOrder (runSamples (decSample c) order s).mem (c.outBase + 2 * i) =
        (decSampleResult s.cfg c.fmt (d i)).dout) ∧
      (∀ a, (∀ i ∈ order, a ≠ c.outBase + 2 * i ∧ a ≠ c.outBase + 2 * i + 1) →
        Memory.read (runSamples (decSample c) order s).mem a = Memory.read s.mem a) ∧
      ∀ i ∈ order, c.disturbed ⟨c.inBase + i, 1⟩ = false → d i = Memory.read s.mem (c.inBase + i) := by
  induction order generalizing s with
  | nil => exact ⟨fun _ => 0, hw, by simp, fun _ _ => rfl, by simp⟩
  | cons i order ih =>
    rw [List.nodup_cons] at hd
    have hw1 : Memory.wf (decSample c s i).mem = true := Memory.wf_write16 _ hw _ _
    obtain ⟨d, h1, h2, h3, h4⟩ := ih (decSample c s i) hw1 hd.2 (fun j hj => hb j (by simp [hj]))
    have rd : ∀ a, Memory.read (decSample c s i).mem a = _ :=
      Memory.read_write16 s.plat.byteOrder hw (c.outBase + 2 * i) (decSampleResult s.cfg c.fmt (decInput c s i)).dout
    have rs := Memory.read16_write16 s.plat.byteOrder hw (c.outBase + 2 * i)
      (decSampleResult s.cfg c.fmt (decInput c s i)).dout
    have other : ∀ j ∈ order, j ≠ i := fun j hj e => hd.1 (e ▸ hj)
    refine ⟨fun j => if j = i then decInput c s i else d j, h1, ?_, ?_, ?_⟩
    · intro j hj
      rcases List.mem_cons.1 hj with rfl | hj
      · simp only [if_true]
        rw [← rs, runSamples_cons]
        apply Memory.read16_congr
        · exact h3 _ fun k hk => by have := other k hk; omega
        · exact h3 _ fun k hk => by have := other k hk; omega
      · rw [runSamples_cons]
        simp only [if_neg (other j hj)]
        exact h2 j hj
    · intro a ha
      have := ha i (by simp)
      rw [runSamples_cons, h3 a (fun k hk => ha k (by simp [hk])), rd, if_neg this.1, if_neg this.2]
    · intro j hj hu
      rcases List.mem_cons.1 hj with rfl | hj
      · simp only [if_true]
        unfold decInput
        rw [if_neg (by simp [hu])]
      · simp only [if_neg (other j hj)]
        rw [h4 j hj hu]
        have := apart i (hb i (by simp)) j (hb j (by simp [hj]))
        rw [rd, if_neg (by omega), if_neg (by omega)]

end Sys2Proof.Machine
end

