-- ==== Sys2Proof/Laws/Segment.lean ====
section
/-! SUPPORT. The segment search (R46): what its result says about the boundaries. -/

namespace Sys2Proof.Machine

theorem leastIndex_le (v : Int) (ts : List Int) : leastIndex v ts ≤ ts.length := by
  induction ts with
  | nil => rfl
  | cons t ts ih => rw [leastIndex]; split <;> simp; exact ih

/-- The index found is at or above `v`, and every earlier boundary is below `v`. -/
theorem leastIndex_spec (v : Int) (ts : List Int) :
    (∀ j (h : j < ts.length), j < leastIndex v ts → ts[j] < v) ∧
      ∀ h : leastIndex v ts < ts.length, v ≤ ts[leastIndex v ts] := by
  induction ts with
  | nil => simp
  | cons t ts ih =>
    by_cases hv : v ≤ t
    · simp [leastIndex, hv]
    · have e : leastIndex v (t :: ts) = leastIndex v ts + 1 := by rw [leastIndex, if_neg hv]
      constructor
      · intro j hj hlt
        cases j with
        | zero => simpa using hv
        | succ j => exact ih.1 j (by simpa using hj) (by omega)
      · intro h
        simp only [e, List.getElem_cons_succ]
        exact ih.2 (by simpa [e] using h)

/-- The index is the least one whose boundary is at or above `v` (R46). -/
theorem leastIndex_eq {v : Int} {ts : List Int} {i : Nat} (hi : i < ts.length) (hv : v ≤ ts[i])
    (hlt : ∀ j (h : j < i), ts[j]'(h.trans hi) < v) : leastIndex v ts = i := by
  obtain ⟨h1, h2⟩ := leastIndex_spec v ts
  rcases Nat.lt_trichotomy (leastIndex v ts) i with h | h | h
  · have := hlt _ h
    have := h2 (h.trans hi)
    omega
  · exact h
  · have := h1 i hi h
    omega

/-- No boundary reaches `v`: the sentinel (R46, R50). -/
theorem leastIndex_exhausted {v : Int} {ts : List Int} (h : ∀ j (hj : j < ts.length), ts[j] < v) :
    leastIndex v ts = ts.length := by
  rcases Nat.lt_or_ge (leastIndex v ts) ts.length with hl | hl
  · have := (leastIndex_spec v ts).2 hl
    have := h _ hl
    omega
  · exact Nat.le_antisymm (leastIndex_le v ts) hl

theorem leastIndex_mono {v w : Int} (h : v ≤ w) (ts : List Int) : leastIndex v ts ≤ leastIndex w ts := by
  induction ts with
  | nil => rfl
  | cons t ts ih =>
    rw [leastIndex, leastIndex]
    split_ifs <;> omega

/-- The result lies in 0..8 (R45). -/
theorem findSegment_le (cfg : Cfg) (v : Int) : findSegment cfg v ≤ 8 := by
  simpa [findSegment] using leastIndex_le v cfg.segTable.toList

/-- `find_segment` over the table's entries by index (R46). -/
theorem findSegment_eq {cfg : Cfg} {v : Int} (i : Nat) (hi : i < 8) (hv : v ≤ cfg.segTable[i])
    (hlt : ∀ j (h : j < i), cfg.segTable[j]'(h.trans hi) < v) : findSegment cfg v = i :=
  leastIndex_eq (by simpa using hi) (by simpa using hv) (by simpa using hlt)

/-- The sentinel by index (R46, R50). -/
theorem findSegment_exhausted {cfg : Cfg} {v : Int} (h : ∀ j (hj : j < 8), cfg.segTable[j] < v) : findSegment cfg v = 8 := by
  have := leastIndex_exhausted (v := v) (ts := cfg.segTable.toList) (by simpa using h)
  simpa [findSegment] using this

/-- Every boundary before the index found is below `v`, and the one at it is not (R46). -/
theorem findSegment_spec (cfg : Cfg) (v : Int) :
    (∀ j (h : j < 8), j < findSegment cfg v → cfg.segTable[j] < v) ∧
      ∀ h : findSegment cfg v < 8, v ≤ cfg.segTable[findSegment cfg v] := by
  have := leastIndex_spec v cfg.segTable.toList
  simpa [findSegment] using this

end Sys2Proof.Machine
end

