-- ==== Sys2Proof/Laws/Step.lean ====
section
/-! SUPPORT. One step of the machine: which host action it carries out, and everything each action can do. -/

namespace Sys2Proof.Machine

/-- R5: every host action under an ill-formed record is refused, before anything else. -/
theorem runCmd_illFormed {s : State} (h : s.cfg.wf = false) (c : HostCmd) : runCmd c s = .refused .cfgIllFormed := by
  cases c
  case eval => exact exec_illFormed h _
  all_goals exact checked_of_illFormed h _

/-- R5: so is every step, an idle one too. -/
theorem step_illFormed {s : State} (h : s.cfg.wf = false) : step s = .refused .cfgIllFormed := checked_of_illFormed h _

theorem step_idle {s : State} (hw : s.cfg.wf = true) (h : s.cmds = []) : step s = .next s := by
  simp [step, runNext, checked_of_wf hw, h]

theorem step_cons {s : State} {c : HostCmd} {rest : List HostCmd} (h : s.cmds = c :: rest) :
    step s = runCmd c { s with cmds := rest } := by
  cases hw : s.cfg.wf with
  | true => simp [step, runNext, checked_of_wf hw, h]
  | false => rw [step_illFormed hw, runCmd_illFormed (s := { s with cmds := rest }) hw]

/-- Everything a step can do when it answers a next state: nothing, with no action pending, or one action. -/
theorem step_cases {s t : State} (h : step s = .next t) :
    s.cmds = [] ∧ t = s ∨ ∃ c rest, s.cmds = c :: rest ∧ runCmd c { s with cmds := rest } = .next t := by
  cases hc : s.cmds with
  | nil =>
    rw [step_idle (checked_cases h).1 hc] at h
    injection h with h
    exact .inl ⟨rfl, h.symm⟩
  | cons c rest => rw [step_cons hc] at h; exact .inr ⟨c, rest, rfl, h⟩

/-- The ports' value is what the last evaluation left there. -/
theorem portValue_ok {s : State} {w : RW} (h : s.portValue = .ok w) : s.out = some w := by
  unfold State.portValue at h
  split at h
  · cases h
  next w' hw =>
    split at h
    · cases h
    · injection h with h; rw [hw, h]

theorem portValue_some {s : State} {w : RW} (h : s.out = some w) (hw : rwStatus w ≠ 0b11#2) : s.portValue = .ok w := by
  unfold State.portValue
  rw [h]
  simp only
  rw [if_neg (by rw [ofCode_eq_none]; exact hw)]

/-- Everything a port read can do when it answers a next state. -/
theorem execReadPorts_cases {s t : State} (h : execReadPorts s = .next t) :
    ∃ w, s.out = some w ∧ t = { s with lastRead := some w } := by
  replace h := (checked_cases h).2
  cases hp : s.portValue with
  | error f => simp [hp] at h
  | ok w =>
    simp only [hp] at h
    injection h with h
    exact ⟨w, portValue_ok hp, h.symm⟩

/-- Everything a chained evaluation can do when it answers a next state. -/
theorem execChain_cases {d : Desc} {s t : State} (h : execChain d s = .next t) :
    ∃ w, s.out = some w ∧ exec (decode (mkTW d (rwDout w))) s = .next t := by
  replace h := (checked_cases h).2
  cases hp : s.portValue with
  | error f => simp [hp] at h
  | ok w => simp only [hp] at h; exact ⟨w, portValue_ok hp, h⟩

/-- Everything a read in flight can do when it answers a next state. -/
theorem execReadInFlight_cases {w : TW} {s t : State} (h : execReadInFlight w s = .next t) :
    s.plat.evalLatency = 0 ∧ ∃ u, exec (decode w) s = .next u ∧ execReadPorts u = .next t := by
  replace h := (checked_cases h).2
  split at h
  · cases h
  next hl =>
    cases he : exec (decode w) s with
    | next u => simp only [he] at h; exact ⟨by omega, u, rfl, h⟩
    | fault f => simp [he] at h
    | refused r => simp [he] at h

/-- A port read of a value on the ports completes, and changes only what the host read last (R94). -/
theorem execReadPorts_next {s : State} {w : RW} (hw : s.cfg.wf = true) (h : s.portValue = .ok w) :
    execReadPorts s = .next { s with lastRead := some w } := by
  rw [execReadPorts, checked_of_wf hw, h]

/-- With latency 0 a read in flight is the evaluation, then the read (log entry 11). -/
theorem execReadInFlight_next {w : TW} {s : State} (hw : s.cfg.wf = true) (hl : s.plat.evalLatency = 0) :
    execReadInFlight w s = .next { s.drive (resultOf s.cfg (decode w)) with lastRead := some (eval s.cfg w) } := by
  have : (s.drive (resultOf s.cfg (decode w))).portValue = .ok (eval s.cfg w) :=
    portValue_some rfl (legalResult_resultOf _ _).1
  rw [execReadInFlight, checked_of_wf hw, if_neg (by omega), exec_next hw]
  exact execReadPorts_next hw this

theorem execStore_cases {a : Nat} {b : Byte} {s t : State} (h : execStore a b s = .next t) :
    a < 2 ^ s.plat.addrBits ∧ t = { s with mem := Memory.write s.mem a b } := by
  replace h := (checked_cases h).2
  split at h
  next ha => injection h with h; exact ⟨by simpa [State.addressExists] using ha, h.symm⟩
  · cases h

theorem run_zero (s : State) : Host.Core.run core 0 s = .next s := rfl

/-- Everything a run of `k + 1` steps of any machine can be when it answers a state. -/
theorem coreRun_succ_cases (M : Host.Core) {k : Nat} {s u : M.State} (h : Host.Core.run M (k + 1) s = .next u) :
    ∃ t, M.step s = .next t ∧ Host.Core.run M k t = .next u := by
  rw [Host.Core.run] at h
  cases e : M.step s with
  | next t => simp only [e] at h; exact ⟨t, rfl, h⟩
  | fault f => simp [e] at h
  | refused r => simp [e] at h

/-- Everything a run of `k + 1` steps of this machine can be when it answers a state: a step, then a run of `k`. -/
theorem run_succ_cases {k : Nat} {s u : State} (h : Host.Core.run core (k + 1) s = .next u) :
    ∃ t : State, step s = .next t ∧ Host.Core.run core k t = .next u := coreRun_succ_cases core h

theorem execOwn_cases {r : Region} {s t : State} (h : execOwn r s = .next t) :
    r.base + r.size ≤ 2 ^ s.plat.addrBits ∧ t = { s with owned := r :: s.owned } := by
  replace h := (checked_cases h).2
  split at h
  next ha => injection h with h; exact ⟨ha, h.symm⟩
  · cases h

end Sys2Proof.Machine
end

