-- ==== Sys2Proof/Tests/Slice0.lean ====
section
/-! SUPPORT. The model's own tests. Every expected value is the spec's: the words of 30_encoding.md R39 written out, the vectors of
95_test_vectors.md, the worked examples of the rules, and 93 G3 for `cfgRef`. The witnesses at the end show, for each
statement with hypotheses, a state and operands that meet all of them. -/

namespace Sys2Proof.Tests

open Sys2Proof Sys2Proof.Machine Sys2Proof.Claims

/-- The ports after an outcome's next state. -/
def portsOf : Host.Outcome State Fault Refusal → Option RW
  | .next t => t.out
  | .fault _ => none
  | .refused _ => none

/-- The refusal an outcome is. -/
def refusalOf : Host.Outcome State Fault Refusal → Option Refusal
  | .next _ => none
  | .fault _ => none
  | .refused r => some r

/-- The fault an outcome is. -/
def faultOf : Host.Outcome State Fault Refusal → Option Fault
  | .next _ => none
  | .fault f => some f
  | .refused _ => none

/-- A field of an outcome's next state. -/
def fieldOf {α : Type} (f : State → α) : Host.Outcome State Fault Refusal → Option α
  | .next t => some (f t)
  | .fault _ => none
  | .refused _ => none

/-- One transaction word evaluated as the first step after reset. -/
def firstStep (w : Nat) : Option RW := portsOf (step (State.reset.withFetchWord 24 w))

/-- A host that owns addresses 0x1000 to 0x3FFF, with the eight input bytes of 95 P2 and the codes of P3 in memory. -/
def bufState (o : ByteOrder) (cmds : List HostCmd) : State :=
  { State.reset with
    plat := { platformDefault with byteOrder := o }
    owned := [⟨0x1000, 0x3000⟩]
    cmds := cmds
    mem := [(0x1002, 0xE8#8), (0x1003, 0x03#8), (0x1004, 0x18#8), (0x1005, 0xFC#8), (0x1006, 0xFF#8), (0x1007, 0x7F#8),
      (0x3000, 0xFF#8), (0x3001, 0xEE#8), (0x3002, 0x20#8), (0x3003, 0x80#8)] }

/-- The bytes of host memory after an outcome, from an address up. -/
def bytesAt (a n : Nat) (o : Host.Outcome State Fault Refusal) : Option (List Byte) :=
  fieldOf (fun t => (List.range n).map (fun k => Memory.read t.mem (a + k))) o

/-! ## Decoding: one word of each row, written out from R39 -/

theorem test_decode_ulawEnc : decode 0b000_0000001111101000#19 = .ulawEnc 0x03E8#16 := by decide
theorem test_decode_ulawDec : decode 0b001_0000000011101110#19 = .ulawDec 0x00EE#16 := by decide
theorem test_decode_segSearch : decode 0b010_0000000100101100#19 = .segSearch 0x012C#16 := by decide
theorem test_decode_reserved011 : decode 0b011_1111111111111111#19 = .reserved011 0xFFFF#16 := by decide
theorem test_decode_alawEnc : decode 0b100_0000001111101000#19 = .alawEnc 0x03E8#16 := by decide
theorem test_decode_alawDec : decode 0b101_0000000011101110#19 = .alawDec 0x00EE#16 := by decide
theorem test_decode_reserved110 : decode 0b110_0000000100101100#19 = .reserved110 0x012C#16 := by decide
theorem test_decode_reserved111 : decode 0b111_1010101111001101#19 = .reserved111 0xABCD#16 := by decide
theorem test_decode_rejects_bit_19 : decodeBytes [0x00#8, 0x00#8, 0x08#8] = .error .widerThanTransactionWord := by rfl
theorem test_decode_table_word : decodeTableWord 24 0x7ABCD = some (.reserved111 0xABCD#16) := by decide

/-! ## One evaluation of each instruction: 95 L2 -/

theorem test_ulawEnc_wrap : firstStep 0x0017C = some 0x000FF#18 := by decide
theorem test_ulawEnc_most_negative : firstStep 0x08000 = some 0x00020#18 := by decide
theorem test_ulawDec_extreme_ignores_high_byte : firstStep 0x1FF00 = some 0x0B3A1#18 := by decide
theorem test_ulawDec_worked_example : firstStep 0x100EE = some 0x00031#18 := by decide
theorem test_segSearch_boundary : firstStep 0x200FF = some 0x00000#18 := by decide
theorem test_segSearch_is_unsigned : firstStep 0x28000 = some 0x00008#18 := by decide
theorem test_alawEnc_raises : firstStep 0x403E8 = some 0x10000#18 := by decide
theorem test_alawDec_raises : firstStep 0x5FFFF = some 0x10000#18 := by decide
theorem test_reserved011_raises : firstStep 0x3FFFF = some 0x20000#18 := by decide
theorem test_reserved110_raises : firstStep 0x6012C = some 0x20000#18 := by decide
theorem test_reserved111_raises : firstStep 0x7FFFF = some 0x20000#18 := by decide

/-- 93 G3: the same rules under `CFG_REF`. -/
theorem test_cfgRef_encode : ulawCode cfgRef 0 = 0xFF#8 ∧ ulawCode cfgRef 1000 = 0xCE#8 ∧ ulawCode cfgRef (-32768) = 0x00#8 := by
  decide

/-- 93 G3: the same rules under `CFG_REF`. -/
theorem test_cfgRef_decode : ulawLinear cfgRef 0x80#8 = 32124 ∧ ulawLinear cfgRef 0xCE#8 = 988 := by decide

/-! ## The host's actions -/

theorem test_read_before_evaluation_faults :
    faultOf (step { State.reset with cmds := [.readPorts] }) = some .outputsNoValue := by decide

/-- 95 P1, transactions 2 and 3: `DEC.U 0xEE`, and its `dout` fed into `ENC.U`. -/
theorem test_chain : portsOf (execChain 0b000#3 { State.reset with out := some 0x00031#18 }) = some 0x000FA#18 := by decide

theorem test_read_in_flight_faults :
    faultOf (execReadInFlight 0x00000#19 { State.reset with plat := { platformDefault with evalLatency := 3 } }) =
      some .outputsInFlight := by decide

theorem test_status_never_produced_faults :
    faultOf (execReadPorts { State.reset with out := some 0x30000#18 }) = some .statusNeverProduced := by decide

/-- 95 P2: a buffer encode of four samples. -/
theorem test_bufEnc_four_samples :
    bytesAt 0x2000 4 (step (bufState .little [encodeEntry 0x1000 8 0x2000])) = some [0xFB#8, 0xEE#8, 0x6E#8, 0xA0#8] := by decide

/-- 95 P3: a buffer decode of four codes. -/
theorem test_bufDec_four_codes :
    bytesAt 0x3100 8 (step (bufState .little [decodeEntry 0x3000 4 0x3100])) =
      some [0x00#8, 0x00#8, 0x31#8, 0x00#8, 0x01#8, 0xED#8, 0x5F#8, 0x4C#8] := by decide

/-- 95 L2.5: the same code 0x20 under a big-endian host. -/
theorem test_bufDec_big_endian :
    bytesAt 0x3100 2 (step (bufState .big [decodeEntry 0x3002 1 0x3100])) = some [0xED#8, 0x01#8] := by decide

/-- 95 P4: an A-law buffer encode of odd length returns UNSUPPORTED_FORMAT and the host records it. -/
theorem test_bufEnc_alaw_odd :
    fieldOf (fun t => (t.ret, t.statusRecord)) (step (bufState .little [.bufEnc ⟨0x1002, 5, 0x2000, .alaw, []⟩])) =
      some (some .unsupportedFormat, ⟨true, false⟩) := by decide

/-- 95 L2.5: the refusals. -/
theorem test_bufEnc_overlap :
    refusalOf (step (bufState .little [encodeEntry 0x1000 4 0x1001])) = some .bufferOverlap := by decide

theorem test_bufDec_size :
    refusalOf (step (bufState .little [decodeEntry 0x3000 1 0x3FFF])) = some .bufferSize := by decide

theorem test_bufEnc_race :
    refusalOf (step (bufState .little [.bufEnc ⟨0x1000, 4, 0x2000, .ulaw, [.read 0x2001]⟩])) = some .outputRace := by decide

/-- 95 L2.5: sample 0 is undisturbed while another agent writes sample 1. -/
theorem test_bufEnc_disturbed :
    bytesAt 0x2000 1 (step (bufState .little [.bufEnc ⟨0x1002, 4, 0x2000, .ulaw, [.write 0x1004 0x00#8]⟩])) = some [0xEE#8] := by
  decide

/-! ## The notation: 95 L2.4 -/

theorem test_notation_pseudo : (readLine "ULAW -1000").bind Line.word = some 0x0FC18#19 := by decide
theorem test_notation_raw : (readLine ".tw 0x7ABCD ; reserved").bind Line.word = some 0x7ABCD#19 := by decide
theorem test_notation_buffer : (readLine "BUF_ENC 0x1000, 8, 0x2000, U").bind Line.cmd = some (encodeEntry 0x1000 8 0x2000) := by
  decide
theorem test_notation_result : writeResult (eval cfgDoc 0x00000#19) = some "-> OK, 0x00FB" := by decide

/-! ## WellFormed: an ill-formed term for each check (R5, R43) -/

theorem test_cfgDoc_wf : cfgDoc.wf = true ∧ cfgRef.wf = true := by decide
theorem test_wf_refuses_negative_entry : Cfg.wf { cfgDoc with segTable := cfgDoc.segTable.set 0 (-1) } = false := by decide
theorem test_wf_refuses_wide_entry : Cfg.wf { cfgDoc with segTable := cfgDoc.segTable.set 7 32768 } = false := by decide
theorem test_wf_refuses_decreasing_table : Cfg.wf { cfgDoc with segTable := cfgDoc.segTable.set 3 1022 } = false := by decide
theorem test_wf_refuses_segCount : Cfg.wf { cfgDoc with segCount := 7 } = false := by decide
theorem test_wf_refuses_mantBits : Cfg.wf { cfgDoc with mantBits := 5 } = false := by decide
theorem test_wf_refuses_negative_clip : Cfg.wf { cfgDoc with clip := -1 } = false := by decide
theorem test_wf_refuses_posMask : Cfg.wf { cfgDoc with posMask := 256 } = false := by decide
theorem test_wf_refuses_negMask : Cfg.wf { cfgDoc with negMask := 0x17F } = false := by decide
theorem test_wf_refuses_operands : Line.wf (.encU 32768) = false ∧ Line.wf (.encA (-32769)) = false ∧ Line.wf (.decU 256) = false ∧
    Line.wf (.decA (-1)) = false ∧ Line.wf (.seg 65536) = false ∧ Line.wf (.tw 0x80000) = false ∧
    Line.wf (.g711enc 32768 .ulaw) = false ∧ Line.wf (.g711dec 256 .alaw) = false ∧ Line.wf (.ulaw 40000) = false ∧
    Line.wf (.unulaw 256) = false := by decide

/-! ## Witnesses: the hypotheses of the statements can be met -/

/-- A call on `bufState` in the terms of `CallerKeeps`. -/
def encCall (len : Nat) (others : List Access) : BufCall := ⟨0x1000, len, 0x2000, .ulaw, others⟩

/-- A call on `bufState` in the terms of `CallerKeeps`. -/
def decCall (len : Nat) (others : List Access) : BufCall := ⟨0x3000, len, 0x3100, .alaw, others⟩

theorem witness_DecodeAndEncodeAgree : (Instr.reserved111 0xFFFF#16).wf = true := by decide

theorem witness_NotationWords : (-32768 : Int) ≤ -32768 ∧ (32767 : Int) ≤ 32767 ∧ 255 < 256 ∧ 65535 < 65536 ∧
    ((32767 : Int) < 32768) ∧ ((255 : Int) < 256) ∧ ((65535 : Int) < 65536) ∧ ((524287 : Int) < 524288) := by decide

theorem witness_StepRunsDecodedInstruction :
    (∀ c ∈ [.eval 0x2012C#19, .chain 0b001#3, .readPorts, .readInFlight 0#19, .store 0 0#8, .own ⟨0, 1⟩,
        encodeEntry 0x1000 8 0x2000, decodeEntry 0x3000 4 0x3100], (bufState .little [c]).cmds = c :: []) ∧
      decodeTableWord 24 0x2012C = some (.segSearch 300#16) ∧ State.reset.cmds = [] := by decide

theorem witness_EveryTransactionWordRuns :
    State.reset.cfg.wf = true ∧ twOperation 0x30000#19 = .reserved ∧ twOperation 0x60000#19 = .seg ∧ twFormat 0x60000#19 = .alaw := by
  decide

theorem witness_EvaluationFrame : ∃ t, exec (.alawEnc 0#16) State.reset = .next t := ⟨_, exec_next test_cfgDoc_wf.1 _⟩

/-- The composed branch at a boundary value: b = 8191 = SEG_TABLE[5], from x = -32768. -/
theorem witness_UlawEncGivesItsCode_composed :
    State.reset.cfg.wf = true ∧ (-8192 : Int) * 2 ^ State.reset.cfg.preShift ≤ (0x8000#16).toInt ∧
      (0x8000#16).toInt < (-8192 + 1) * 2 ^ State.reset.cfg.preShift ∧
      (8191 : Int) = min ((-8192 : Int).natAbs : Int) State.reset.cfg.clip + State.reset.cfg.encBias ∧
      0x7F = (if (-8192 : Int) < 0 then State.reset.cfg.negMask else State.reset.cfg.posMask) ∧
      (8191 : Int) ≤ State.reset.cfg.segTable[5] ∧ ∀ (j : Nat) (hj : j < 5), State.reset.cfg.segTable[j] < (8191 : Int) := by decide

/-- The overflow branch at its first value: b = 8192 under `CFG_REF`, from x = 32767. -/
theorem witness_UlawEncGivesItsCode_overflow :
    cfgRef.wf = true ∧ (8191 : Int) * 2 ^ cfgRef.preShift ≤ (0x7FFF#16).toInt ∧
      (0x7FFF#16).toInt < (8191 + 1) * 2 ^ cfgRef.preShift ∧
      (8192 : Int) = min ((8191 : Int).natAbs : Int) cfgRef.clip + cfgRef.encBias ∧
      0xFF = (if (8191 : Int) < 0 then cfgRef.negMask else cfgRef.posMask) ∧
      ∀ (j : Nat) (hj : j < 8), cfgRef.segTable[j] < (8192 : Int) := by decide

/-- The hypothesis of every statement under `CFG_DOC`. -/
theorem witness_underDoc : State.reset.cfg = cfgDoc := by decide

theorem witness_UlawDecGivesItsSample :
    State.reset.cfg.wf = true ∧ (-19551 : Int) = linearValue State.reset.cfg ((0xFF00#16).toNat % 256) ∧
      (-32768 : Int) ≤ -19551 ∧ (-19551 : Int) ≤ 32767 := by decide

/-- A well-formed record under which a decoded value leaves the 16-bit range. -/
theorem witness_UlawDecCompletesOnOpenValues :
    Cfg.wf { cfgDoc with decScale := 10 } = true ∧
      (32767 : Int) < linearValue { cfgDoc with decScale := 10 } ((0x0080#16).toNat % 256) := by decide

theorem witness_DecodeTableUnderDoc : State.reset.cfg = cfgDoc ∧ 7 < 8 ∧ 15 < 16 := by decide

theorem witness_SegSearchGivesLeastIndex_found :
    State.reset.cfg.wf = true ∧ ((256#16).toNat : Int) ≤ State.reset.cfg.segTable[1] ∧
      ∀ (j : Nat) (hj : j < 1), State.reset.cfg.segTable[j] < ((256#16).toNat : Int) := by decide

theorem witness_SegSearchGivesLeastIndex_sentinel :
    ∀ (j : Nat) (hj : j < 8), State.reset.cfg.segTable[j] < ((32768#16).toNat : Int) := by decide

/-- The hypothesis of the statements about every well-formed record. -/
theorem witness_wellFormed : State.reset.cfg.wf = true := by decide

theorem witness_IllFormedRecordIsRefused :
    ({ State.reset with cfg := { cfgDoc with clip := -1 } } : State).cfg.wf = false := by decide

theorem witness_sampleRange : (-32768 : Int) ≤ -32768 ∧ (-32768 : Int) ≤ 32767 ∧ (-32768 : Int) ≤ 32767 ∧ (32767 : Int) ≤ 32767 := by
  decide

theorem witness_OverflowBranchGivesTopCode :
    cfgRef.wf = true ∧ cfgRef.ovfCode = 0x7F#8 ∧ ∀ (j : Nat) (h : j < 8), cfgRef.segTable[j] < (8192 : Int) := by decide

theorem witness_EncoderWritesSignSegmentMantissa :
    cfgRef.wf = true ∧ cfgRef.posMask = 0xFF ∧ cfgRef.negMask = 0x7F ∧ cfgRef.ovfCode = 0x7F#8 ∧
      findSegment cfgRef (biased cfgRef 32632) = 7 ∧ findSegment cfgRef (biased cfgRef 32767) = 8 := by decide

theorem witness_EncoderReachUnderDoc : (33 ≤ 33 ∧ 255 ≤ 255) ∧ (1 ≤ 5 ∧ 5 ≤ 5 ∧ 2 ^ (5 + 7) ≤ 8191 ∧ 8191 ≤ 2 ^ (5 + 8) - 1) ∧
    (1 ≤ 1 ∧ 2 ^ (1 + 7) ≤ 256 ∧ 256 ≤ 2 ^ (1 + 8) - 1) := by decide

theorem witness_ComparatorTreeComputesFindSegment :
    cfgDoc.wf = true ∧ (0#3).toNat ≤ (7#3).toNat ∧ comparator cfgDoc 32768 7#3 = true := by decide

theorem witness_SegSearchIsMonotone :
    State.reset.cfg.wf = true ∧ (255 : Int) ≤ 256 ∧ (255#16).toNat ≤ (256#16).toNat := by decide

/-- The two edges of the saturated region. -/
theorem witness_SaturatedRegionUnderDoc :
    32632 ≤ (32632#16).toInt ∧ (BitVec.ofInt 16 (-32629)).toInt ≤ -32629 ∧ State.reset.cfg = cfgDoc := by decide

/-- A step that answers a next state, from a state that meets the invariant. -/
theorem witness_stepNext : ∃ t, step (State.reset.present 0x30000#19) = .next t :=
  ⟨_, (step_cons (c := .eval 0x30000#19) (rest := []) rfl).trans
    (exec_next (s := State.reset) test_cfgDoc_wf.1 (decode 0x30000#19))⟩

theorem witness_StepKeepsInv : (State.reset.present 0x30000#19).Inv where
  cfgWf := test_cfgDoc_wf.1
  memWf := rfl
  memExists := by simp [State.present, State.reset]
  ownedExists := by simp [State.present, State.reset]
  outLegal := by simp [State.present, State.reset]
  readLegal := by simp [State.present, State.reset]
  outRecorded := by simp [State.present, State.reset]
  readRecorded := by simp [State.present, State.reset]
  retRecorded := by simp [State.present, State.reset]

theorem witness_StatusRecordIsSticky :
    ({ State.reset with statusRecord := ⟨true, false⟩ } : State).statusRecord.holds .unsupportedFormat ∧
      (∃ t, step { State.reset with statusRecord := ⟨true, false⟩ } = .next t) ∧
      ∃ t, exec (.ulawEnc 0#16) State.reset = .next t :=
  ⟨rfl, ⟨_, step_idle test_cfgDoc_wf.1 rfl⟩, ⟨_, exec_next test_cfgDoc_wf.1 _⟩⟩

theorem witness_ResultIsIndependentOfHistory :
    State.reset.cfg.wf = true ∧ Host.Core.run core 0 State.reset = .next State.reset := ⟨test_cfgDoc_wf.1, rfl⟩

/-- Any change of latency before a call, and a change between two latencies other than 0 before a read in flight. -/
theorem witness_LatencyAndAttachmentAreInvisible :
    (bufState .little [encodeEntry 0x1000 8 0x2000]).cmds.head? = some (encodeEntry 0x1000 8 0x2000) ∧
      ({ State.reset with cmds := [.readInFlight 0#19] } : State).cmds.head? = some (.readInFlight 0#19) ∧
      (0 < 7 ↔ 0 < ({ platformDefault with evalLatency := 1 } : Platform).evalLatency) := by decide

theorem witness_PortsHaveNoValueBeforeAnEvaluation :
    State.reset.out = none ∧ 0 < ({ State.reset with plat := { platformDefault with evalLatency := 1 } } : State).plat.evalLatency ∧
      ({ State.reset with out := some 0x10000#18 } : State).out = some 0x10000#18 ∧ rwStatus 0x10000#18 ≠ 0b11#2 ∧
      ({ State.reset with out := some 0x30000#18 } : State).out = some 0x30000#18 ∧ rwStatus 0x30000#18 = 0b11#2 ∧
      State.reset.cfg.wf = true ∧ State.reset.plat.evalLatency = 0 := by decide

theorem witness_ResultFeedsTheNextTransaction :
    (bufState .little [.eval 0x100EE#19, .chain 0b000#3]).cmds = .eval 0x100EE#19 :: .chain 0b000#3 :: [] := by decide

theorem witness_StoreChangesOneByte :
    (bufState .little []).cfg.wf = true ∧ Memory.wf (bufState .little []).mem = true ∧ 0xFFFFFFFF < 2 ^ State.reset.plat.addrBits ∧
      2 ^ State.reset.plat.addrBits ≤ 0x100000000 := by decide

theorem witness_OwningARegion :
    State.reset.cfg.wf = true ∧ 0xFFFFFFFF + 1 ≤ 2 ^ State.reset.plat.addrBits ∧ 2 ^ State.reset.plat.addrBits < 0xFFFFFFFF + 2 := by decide

/-- The premises of the BUF_ENC statements: an odd length, no other agent, and one that writes an input sample. -/
theorem witness_bufEnc (xs : List Access) (h : xs = [] ∨ xs = [.write 0x1002 0x55#8]) :
    (bufState .little []).cfg.wf = true ∧ Memory.wf (bufState .little []).mem = true ∧
      CallerKeeps (bufState .little []) (encCall 9 xs) ⟨0x1000, 2 * (9 / 2)⟩ ⟨0x2000, 9 / 2⟩ := by
  refine ⟨by decide, by decide, ?_⟩
  rcases h with rfl | rfl <;> exact callerKeeps_of_checks (by decide) (by decide) (by decide) (by decide) (by decide)

/-- The premises of the BUF_DEC statements, as for BUF_ENC. -/
theorem witness_bufDec (xs : List Access) (h : xs = [] ∨ xs = [.write 0x3001 0x55#8]) :
    (bufState .big []).cfg.wf = true ∧ Memory.wf (bufState .big []).mem = true ∧
      CallerKeeps (bufState .big []) (decCall 4 xs) ⟨0x3000, 4⟩ ⟨0x3100, 2 * 4⟩ := by
  refine ⟨by decide, by decide, ?_⟩
  rcases h with rfl | rfl <;> exact callerKeeps_of_checks (by decide) (by decide) (by decide) (by decide) (by decide)

theorem witness_DisturbedSampleIsDrawn :
    writtenBy [.write 0x1002 0x55#8] 0x1002 ∧ ¬ writtenBy [.write 0x1002 0x55#8] 0x1000 := by simp [writtenBy]

theorem witness_OverlapIsRefused : ∃ a, inRegion 0x1000 (2 * (4 / 2)) a ∧ inRegion 0x1001 (4 / 2) a :=
  ⟨0x1001, by simp [inRegion], by simp [inRegion]⟩

/-- An output region whose last byte the caller does not own, apart from the input region. -/
theorem witness_UndersizedBufferIsRefused :
    (¬ ∃ a, inRegion 0x3000 1 a ∧ inRegion 0x3FFF (2 * 1) a) ∧
      ∃ a, (inRegion 0x3000 1 a ∨ inRegion 0x3FFF (2 * 1) a) ∧ ¬ ownsByte (bufState .little []) a := by
  refine ⟨fun ⟨a, h1, h2⟩ => by unfold inRegion at h1 h2; omega, 0x4000, ?_, ?_⟩
  · simp [inRegion]
  · simp [ownsByte, inRegion, bufState]

theorem witness_OutputRaceIsRefused :
    Access.read 0x2001 ∈ (encCall 4 [.read 0x2001]).others ∧
      (∀ a, inRegion 0x1000 (2 * (4 / 2)) a → ownsByte (bufState .little []) a ∧ ¬ inRegion 0x2000 (4 / 2) a) ∧
      (∀ a, inRegion 0x2000 (4 / 2) a → ownsByte (bufState .little []) a) ∧ inRegion 0x2000 (4 / 2) 0x2001 := by
  refine ⟨by simp [encCall], ?_, ?_, by simp [inRegion]⟩ <;> intro a h <;>
    simp only [inRegion, ownsByte, bufState, platformDefault, List.mem_singleton, exists_eq_left] at h ⊢ <;> omega

theorem witness_SampleOrderIsUnobservable : [3, 1, 0, 2].Perm (List.range (9 / 2)) := by decide

/-- Two calls that share their input and whose outputs are apart, of either procedure each. -/
theorem witness_CallsSharingInputsCommute (p q : Procedure) :
    let c : BufCall := ⟨0x1000, 8, 0x2000, .ulaw, []⟩
    let d : BufCall := ⟨0x1000, 8, 0x2100, .alaw, []⟩
    CallerKeeps (bufState .little []) c (p.input c) (p.output c) ∧ CallerKeeps (bufState .little []) d (q.input d) (q.output d) ∧
      (∀ a, inRegion (p.output c).base (p.output c).size a →
        ¬ inRegion (q.output d).base (q.output d).size a ∧ ¬ inRegion (q.input d).base (q.input d).size a) ∧
      ∀ a, inRegion (q.output d).base (q.output d).size a → ¬ inRegion (p.input c).base (p.input c).size a := by
  cases p <;> cases q <;>
    exact ⟨callerKeeps_of_checks (by decide) (by decide) (by decide) (by decide) (by decide),
      callerKeeps_of_checks (by decide) (by decide) (by decide) (by decide) (by decide),
      fun a h => by simp only [Procedure.input, Procedure.output, inRegion] at *; omega,
      fun a h => by simp only [Procedure.input, Procedure.output, inRegion] at *; omega⟩

end Sys2Proof.Tests
end

/-! PROOFS. The constant record's predicate (R5) by the entries of the table, and what an ill-formed record refuses. -/

namespace Sys2Proof

theorem Cfg.entryFits_iff (t : Int) : Cfg.entryFits t = true ↔ 0 ≤ t ∧ t ≤ 32767 := by simp [Cfg.entryFits]

/-- R5's comparison of each boundary with the next is the library's chain of `≤`. -/
theorem Cfg.nonDecreasing_iff_isChain (ts : List Int) : Cfg.nonDecreasing ts = true ↔ ts.IsChain (· ≤ ·) := by
  induction ts with
  | nil => simp [Cfg.nonDecreasing]
  | cons a ts ih =>
    cases ts with
    | nil => simp [Cfg.nonDecreasing]
    | cons b rest => simp [Cfg.nonDecreasing, ih]

/-- Every entry of the table fits, by index (R5). -/
theorem Cfg.all_entryFits_iff (table : Vector Int 8) :
    table.toList.all Cfg.entryFits = true ↔ ∀ (i : Nat) (h : i < 8), 0 ≤ table[i] ∧ table[i] ≤ 32767 := by
  simp [Cfg.entryFits_iff]

/-- The table is non-decreasing, by index (R5). -/
theorem Cfg.nonDecreasing_toList_iff (table : Vector Int 8) :
    Cfg.nonDecreasing table.toList = true ↔ ∀ (i : Nat) (h : i < 7), table[i] ≤ table[i + 1] := by
  simp only [Cfg.nonDecreasing_iff_isChain, List.isChain_iff_getElem, Vector.length_toList, Vector.getElem_toList]
  exact ⟨fun ordered i h => ordered i (by omega), fun ordered i h => ordered i (by omega)⟩

/-- R5: what a well-formed record is, clause by clause. -/
theorem Cfg.wf_iff (cfg : Cfg) : cfg.wf = true ↔
    (∀ (i : Nat) (h : i < 8), 0 ≤ cfg.segTable[i] ∧ cfg.segTable[i] ≤ 32767) ∧
      (∀ (i : Nat) (h : i < 7), cfg.segTable[i] ≤ cfg.segTable[i + 1]) ∧
      cfg.segCount = 8 ∧ cfg.mantBits = 4 ∧ 0 ≤ cfg.clip ∧ cfg.posMask < 256 ∧ cfg.negMask < 256 := by
  simp only [Cfg.wf, Bool.and_eq_true, decide_eq_true_eq, Cfg.all_entryFits_iff, Cfg.nonDecreasing_toList_iff, and_assoc]

end Sys2Proof

namespace Sys2Proof.Claims

open Sys2Proof.Machine

/-- Settles O21: the record's predicate by index, and the check that stands first in every step, instruction and host action. -/
theorem illFormedRecordIsRefused : Obligations.IllFormedRecordIsRefused := by
  unfold Obligations.IllFormedRecordIsRefused
  refine ⟨Cfg.wf_iff, by decide, fun s h => ?_⟩
  have action := runCmd_illFormed h
  exact ⟨step_illFormed h, exec_illFormed h, action, action .readPorts, fun d => action (.chain d),
    fun w => action (.readInFlight w), fun a b => action (.store a b), fun r => action (.own r),
    fun c => action (.bufEnc c), fun c => action (.bufDec c)⟩

end Sys2Proof.Claims

/-! PROOFS. The constants and the open parameters along a run (R10, R11, R30): no host action, no step and no run writes them. -/

namespace Sys2Proof.Machine

/-- R4, R6: `t` has the constants and the open parameters of `s`. -/
structure SameConstants (s t : State) : Prop where
  cfg : t.cfg = s.cfg
  plat : t.plat = s.plat

theorem SameConstants.refl (s : State) : SameConstants s s := ⟨rfl, rfl⟩

theorem SameConstants.trans {s t u : State} (h : SameConstants s t) (k : SameConstants t u) : SameConstants s u :=
  ⟨k.cfg.trans h.cfg, k.plat.trans h.plat⟩

theorem SameHost.sameConstants {s t : State} (h : SameHost s t) : SameConstants s t := ⟨h.cfg, h.plat⟩

theorem exec_sameConstants {i : Instr} {s t : State} (h : exec i s = .next t) : SameConstants s t := by
  obtain ⟨_, rfl⟩ := exec_cases h
  exact ⟨rfl, rfl⟩

theorem execReadPorts_sameConstants {s t : State} (h : execReadPorts s = .next t) : SameConstants s t := by
  obtain ⟨_, _, rfl⟩ := execReadPorts_cases h
  exact ⟨rfl, rfl⟩

/-- No host action writes the constants or the open parameters. -/
theorem runCmd_sameConstants {c : HostCmd} {s t : State} (h : runCmd c s = .next t) : SameConstants s t := by
  cases c with
  | eval w => exact exec_sameConstants h
  | chain d =>
    obtain ⟨_, _, evaluated⟩ := execChain_cases h
    exact exec_sameConstants evaluated
  | readPorts => exact execReadPorts_sameConstants h
  | readInFlight w =>
    obtain ⟨_, _, evaluated, read⟩ := execReadInFlight_cases h
    exact (exec_sameConstants evaluated).trans (execReadPorts_sameConstants read)
  | store a b =>
    obtain ⟨_, rfl⟩ := execStore_cases h
    exact ⟨rfl, rfl⟩
  | own r =>
    obtain ⟨_, rfl⟩ := execOwn_cases h
    exact ⟨rfl, rfl⟩
  | bufEnc c => exact (execBufEnc_sameHost h).sameConstants
  | bufDec c => exact (execBufDec_sameHost h).sameConstants

/-- Taking an action off the pending ones writes neither, so no step does. -/
theorem step_sameConstants {s t : State} (h : step s = .next t) : SameConstants s t := by
  obtain ⟨_, rfl⟩ | ⟨_, _, _, ran⟩ := step_cases h
  · exact .refl _
  · exact ⟨(runCmd_sameConstants ran).cfg, (runCmd_sameConstants ran).plat⟩

theorem run_sameConstants {k : Nat} {s u : State} (h : Host.Core.run core k s = .next u) : SameConstants s u := by
  induction k generalizing s with
  | zero =>
    rw [run_zero] at h
    injection h with h
    exact h ▸ .refl s
  | succ k ih =>
    obtain ⟨_, first, rest⟩ := run_succ_cases h
    exact (step_sameConstants first).trans (ih rest)

end Sys2Proof.Machine

namespace Sys2Proof.Claims

open Sys2Proof.Machine

/-- Settles O38: a result depends on the constants and the transaction word only, and no run writes the constants. -/
theorem resultIsIndependentOfHistory : Obligations.ResultIsIndependentOfHistory := by
  unfold Obligations.ResultIsIndependentOfHistory
  intro k s u w hs hrun
  have hcfg : u.cfg = s.cfg := (run_sameConstants hrun).cfg
  have hu : u.cfg.wf = true := by rw [hcfg, hs]
  refine ⟨_, _, exec_next hs _, exec_next hu _, ?_⟩
  rw [drive_out, drive_out, hcfg]

end Sys2Proof.Claims

/-! PROOFS. Host memory (R16 to R18): the two bytes of a sample, and regions, ownership and other agents' writes in the claims'
terms. -/

namespace Sys2Proof.Claims

open Sys2Proof.Machine

/-- Settles O46: the memory laws of a sample write, in both byte orders. -/
theorem sampleBytesInMemory : Obligations.SampleBytesInMemory := by
  unfold Obligations.SampleBytesInMemory
  intro m a v x hm
  exact ⟨Memory.read_write16 .little hm a v x, Memory.read_write16 .big hm a v x, rfl, rfl,
    fun o => ⟨Memory.read16_write16 o hm a v, Memory.wf_write16 o hm a v⟩⟩

/-- A sample read determines both of its bytes (R17). -/
theorem bytes_eq_of_read16_eq {o : ByteOrder} {m n : Memory} {a : Nat} (h : Memory.read16 o m a = Memory.read16 o n a) :
    Memory.read m a = Memory.read n a ∧ Memory.read m (a + 1) = Memory.read n (a + 1) := by
  have low := congrArg (BitVec.extractLsb' 0 8) h
  have high := congrArg (BitVec.extractLsb' 8 8) h
  cases o <;> simp only [Memory.read16, Laws.low_append, Laws.high_append] at low high
  · exact ⟨low, high⟩
  · exact ⟨high, low⟩

theorem has_iff (r : Region) (a : Nat) : r.has a = true ↔ inRegion r.base r.size a := by simp [Region.has, inRegion]

theorem has_eq_false_iff (r : Region) (a : Nat) : r.has a = false ↔ ¬ inRegion r.base r.size a := by
  rw [← has_iff, Bool.not_eq_true]

theorem owns_iff (s : State) (a : Nat) : s.owns a = true ↔ ownsByte s a := by
  simp [State.owns, State.addressExists, ownsByte, has_iff]

theorem overlaps_iff_inRegion (r q : Region) :
    r.overlaps q = true ↔ ∃ a, inRegion r.base r.size a ∧ inRegion q.base q.size a := by
  simp only [overlaps_iff, has_iff]

theorem ownsRegion_iff_ownsByte (s : State) (r : Region) :
    s.ownsRegion r = true ↔ ∀ a, inRegion r.base r.size a → ownsByte s a := by
  simp only [ownsRegion_iff, has_iff, owns_iff]

/-- A region is undisturbed exactly when no other agent writes a byte of it (R28). -/
theorem disturbed_eq_false_iff (c : BufCall) (r : Region) :
    c.disturbed r = false ↔ ∀ a, inRegion r.base r.size a → ¬ writtenBy c.others a := by
  simp only [BufCall.disturbed, List.any_eq_false, Bool.not_eq_true]
  constructor
  · rintro none a ha ⟨b, hb⟩
    exact (has_eq_false_iff r a).1 (none _ hb) ha
  · intro none x hx
    cases x with
    | read a => rfl
    | write a b => exact (has_eq_false_iff r a).2 fun ha => none a ha ⟨b, hx⟩

/-- When a call's first sample is read, memory has changed only where another agent writes (R28). -/
theorem read_start {s : State} {c : BufCall} {a : Nat} (hm : Memory.wf s.mem = true) (ha : ¬ writtenBy c.others a) :
    Memory.read (c.start s).mem a = Memory.read s.mem a :=
  Access.read_applyAll hm c.others a fun _ hx b e => ha ⟨b, e ▸ hx⟩

theorem not_writtenBy_nil (a : Nat) : ¬ writtenBy [] a := by simp [writtenBy]

end Sys2Proof.Claims

/-! PROOFS. The checks before a buffer call (R24, R25, R28), each named when those before it pass (log entry 9). -/

namespace Sys2Proof.Claims

open Sys2Proof.Machine

section
variable {s : State} {c : BufCall} {inR outR : Region} {body : State → State}

theorem guarded_overlap_iff (hw : s.cfg.wf = true) :
    c.guarded inR outR body s = .refused .bufferOverlap ↔
      ∃ a, inRegion inR.base inR.size a ∧ inRegion outR.base outR.size a := by
  rw [← overlaps_iff_inRegion, BufCall.guarded, checked_of_wf hw]
  by_cases overlap : inR.overlaps outR = true
  · rw [if_pos overlap, eq_self, true_iff]
    exact overlap
  · rw [if_neg overlap, iff_false_right overlap]
    split_ifs <;> simp

theorem guarded_bufferSize (hw : s.cfg.wf = true)
    (apart : ¬ ∃ a, inRegion inR.base inR.size a ∧ inRegion outR.base outR.size a)
    (missing : ∃ a, (inRegion inR.base inR.size a ∨ inRegion outR.base outR.size a) ∧ ¬ ownsByte s a) :
    c.guarded inR outR body s = .refused .bufferSize := by
  have unowned : (s.ownsRegion inR && s.ownsRegion outR) = false := by
    rw [← Bool.not_eq_true, Bool.and_eq_true, ownsRegion_iff_ownsByte, ownsRegion_iff_ownsByte]
    rintro ⟨ownsIn, ownsOut⟩
    obtain ⟨a, ha | ha, hna⟩ := missing
    · exact hna (ownsIn a ha)
    · exact hna (ownsOut a ha)
  rw [BufCall.guarded, checked_of_wf hw, if_neg (by rwa [overlaps_iff_inRegion]), if_pos unowned]

theorem guarded_outputRace {x : Access} (hw : s.cfg.wf = true) (hx : x ∈ c.others)
    (keepsIn : ∀ a, inRegion inR.base inR.size a → ownsByte s a ∧ ¬ inRegion outR.base outR.size a)
    (ownsOut : ∀ a, inRegion outR.base outR.size a → ownsByte s a) (race : inRegion outR.base outR.size x.addr) :
    c.guarded inR outR body s = .refused .outputRace := by
  have apart : ¬ inR.overlaps outR = true := by
    rw [overlaps_iff_inRegion]
    exact fun ⟨a, hin, hout⟩ => (keepsIn a hin).2 hout
  have owned : (s.ownsRegion inR && s.ownsRegion outR) = true := by
    rw [Bool.and_eq_true, ownsRegion_iff_ownsByte, ownsRegion_iff_ownsByte]
    exact ⟨fun a ha => (keepsIn a ha).1, ownsOut⟩
  rw [BufCall.guarded, checked_of_wf hw, if_neg apart, if_neg (by simp [owned]),
    if_pos (List.any_eq_true.2 ⟨x, hx, (has_iff _ _).2 race⟩)]

end

/-- Settles O50: the first check's outcome, for either procedure's regions. -/
theorem overlapIsRefused : Obligations.OverlapIsRefused := by
  unfold Obligations.OverlapIsRefused
  exact fun _ _ hw => ⟨guarded_overlap_iff hw, guarded_overlap_iff hw⟩

/-- Settles O51: the second check's outcome, for either procedure's regions. -/
theorem undersizedBufferIsRefused : Obligations.UndersizedBufferIsRefused := by
  unfold Obligations.UndersizedBufferIsRefused
  exact fun _ c hw => ⟨guarded_bufferSize (inR := c.encIn) (outR := c.encOut) hw,
    guarded_bufferSize (inR := c.decIn) (outR := c.decOut) hw⟩

/-- Settles O52: the third check's outcome, for either procedure's regions. -/
theorem outputRaceIsRefused : Obligations.OutputRaceIsRefused := by
  unfold Obligations.OutputRaceIsRefused
  exact fun _ c _ hw hx => ⟨guarded_outputRace (inR := c.encIn) (outR := c.encOut) hw hx,
    guarded_outputRace (inR := c.decIn) (outR := c.decOut) hw hx⟩

/-- Settles O49: a call reads its length through the number of samples only, which halving makes the same. -/
theorem oddLastByteIsNotEncoded : Obligations.OddLastByteIsNotEncoded := by
  unfold Obligations.OddLastByteIsNotEncoded
  intro s inBase k outBase f xs
  have half : (2 * k + 1) >>> 1 = (2 * k) >>> 1 := by omega
  simp only [execBufEnc, BufCall.encIn, BufCall.encOut, BufCall.samples, half]
  rfl

end Sys2Proof.Claims

/-! PROOFS. The loops of the buffer procedures (R21, R22) over any order of their samples, with other agents at work (R28) and
without. -/

namespace Sys2Proof.Claims

open Sys2Proof.Machine

/-- R21, R22: the number of samples of a procedure's call. -/
def Procedure.samples : Procedure → BufCall → Nat
  | .bufEnc, c => c.len / 2
  | .bufDec, c => c.len

/-- R21, R22: one turn of a procedure's loop. -/
def Procedure.turn : Procedure → BufCall → State → Nat → State
  | .bufEnc => encSample
  | .bufDec => decSample

/-- R21, R22: the status a procedure's call returns. -/
def Procedure.status (p : Procedure) (c : BufCall) : Status :=
  if c.fmt = .alaw ∧ 0 < p.samples c then .unsupportedFormat else .ok

theorem Procedure.call_eq_guarded (p : Procedure) (c : BufCall) (s : State) :
    p.call c s = c.guarded (p.input c) (p.output c) (runSamples (p.turn c) (List.range (p.samples c))) s := by
  cases p <;> rfl

theorem Procedure.call_next (p : Procedure) {c : BufCall} {s : State} (hw : s.cfg.wf = true)
    (keeps : CallerKeeps s c (p.input c) (p.output c)) :
    p.call c s = .next (runSamples (p.turn c) (List.range (p.samples c)) (c.start s)) := by
  rw [p.call_eq_guarded, guarded_of_callerKeeps hw keeps]

theorem Procedure.loop_sameHost (p : Procedure) (c : BufCall) (order : List Nat) (s : State) :
    SameHost s (runSamples (p.turn c) order (c.start s)) := by
  cases p
  · exact (start_sameHost c s).trans (runSamples_enc_sameHost c order _)
  · exact (start_sameHost c s).trans (runSamples_dec_sameHost c order _)

theorem Procedure.note_status (p : Procedure) (c : BufCall) (rec : StatusRecord) : rec.note (p.status c) =
    if c.fmt = .alaw ∧ 0 < p.samples c then { rec with unsupportedFormat := true } else rec := by
  unfold Procedure.status
  split_ifs <;> rfl

/-- What a call's loop returns and records, over any order of its samples (R21, R22, R88). -/
theorem Procedure.loop_status (p : Procedure) (c : BufCall) {order : List Nat} (perm : order.Perm (List.range (p.samples c)))
    (s : State) : (runSamples (p.turn c) order (c.start s)).ret = some (p.status c) ∧
      (runSamples (p.turn c) order (c.start s)).statusRecord = s.statusRecord.note (p.status c) := by
  have length : order.length = p.samples c := by simpa using perm.length_eq
  have loop : (runSamples (p.turn c) order (c.start s)).ret =
        (if c.fmt = .alaw ∧ 0 < order.length then some .unsupportedFormat else (c.start s).ret) ∧
      (runSamples (p.turn c) order (c.start s)).statusRecord =
        (if c.fmt = .alaw ∧ 0 < order.length then { (c.start s).statusRecord with unsupportedFormat := true }
          else (c.start s).statusRecord) := by
    cases p
    · exact runSamples_status c.fmt (turn := encSample c) (fun _ _ => rfl) (fun _ _ => encSampleResult_status _ _ _) order _
        (.inl rfl)
    · exact runSamples_status c.fmt (turn := decSample c) (fun _ _ => rfl) (fun _ _ => decSampleResult_status _ _ _) order _
        (.inl rfl)
  rw [p.note_status, loop.1, loop.2, length, Procedure.status]
  exact ⟨(apply_ite some _ _ _).symm, rfl⟩

/-- The code `BUF_ENC` writes is the low byte of the evaluation (R21). -/
theorem encSampleResult_low (cfg : Cfg) (f : Format) (w : Word16) :
    (encSampleResult cfg f w).dout.extractLsb' 0 8 = (eval cfg (mkTW (mkDesc f .enc) w)).extractLsb' 0 8 := by
  rw [← rwDout_pack]
  apply BitVec.eq_of_getLsbD_eq
  intro i hi
  simp [rwDout, encSampleResult, eval, hi]

/-- The sample `BUF_DEC` writes is the evaluation's `dout` (R22). -/
theorem decSampleResult_dout (cfg : Cfg) (f : Format) (b : Byte) :
    (decSampleResult cfg f b).dout = rwDout (eval cfg (mkTW (mkDesc f .dec) (0x00#8 ++ b))) := (rwDout_pack _).symm

section
variable {c : BufCall} {s : State} {order : List Nat}

/-- R21, R28: memory after `BUF_ENC`'s loop, over any order of its samples: each output is the evaluation of a drawn value, which
is memory's own where no other agent writes the sample. -/
theorem encLoop_drawn (hm : Memory.wf s.mem = true)
    (apart : ∀ a, (Procedure.input .bufEnc c).has a = true → (Procedure.output .bufEnc c).has a = false)
    (perm : order.Perm (List.range (c.len / 2))) :
    ∃ d : Nat → Word16, Memory.wf (runSamples (encSample c) order (c.start s)).mem = true ∧
      (∀ k, k < c.len / 2 → Memory.read (runSamples (encSample c) order (c.start s)).mem (c.outBase + k) =
        (eval s.cfg (mkTW (mkDesc c.fmt .enc) (d k))).extractLsb' 0 8) ∧
      (∀ k, k < c.len / 2 → ¬ writtenBy c.others (c.inBase + 2 * k) → ¬ writtenBy c.others (c.inBase + 2 * k + 1) →
        d k = Memory.read16 s.plat.byteOrder s.mem (c.inBase + 2 * k)) ∧
      ∀ a, ¬ inRegion c.outBase (c.len / 2) a → ¬ writtenBy c.others a →
        Memory.read (runSamples (encSample c) order (c.start s)).mem a = Memory.read s.mem a := by
  have mem_order : ∀ k, k ∈ order ↔ k < c.len / 2 := fun k => perm.mem_iff.trans List.mem_range
  have bytes_apart : ∀ i < c.len / 2, ∀ j < c.len / 2,
      c.outBase + i ≠ c.inBase + 2 * j ∧ c.outBase + i ≠ c.inBase + 2 * j + 1 := by
    intro i hi j hj
    have first := apart (c.inBase + 2 * j)
    have second := apart (c.inBase + 2 * j + 1)
    simp only [has_iff, has_eq_false_iff, Procedure.input, Procedure.output, inRegion] at first second
    omega
  obtain ⟨d, wf, outputs, frame, drawn⟩ := encLoop_memory c _ bytes_apart order (c.start s) (Access.wf_applyAll hm _)
    (perm.nodup_iff.2 List.nodup_range) fun i hi => (mem_order i).1 hi
  refine ⟨d, wf, fun k hk => ?_, fun k hk free0 free1 => ?_, fun a out free => ?_⟩
  · rw [outputs k ((mem_order k).2 hk), encSampleResult_low, start_cfg]
  · have undisturbed : c.disturbed ⟨c.inBase + 2 * k, 2⟩ = false := by
      rw [disturbed_eq_false_iff]
      intro a ha
      obtain rfl | rfl : a = c.inBase + 2 * k ∨ a = c.inBase + 2 * k + 1 := by simp only [inRegion] at ha; omega
      · exact free0
      · exact free1
    rw [drawn k ((mem_order k).2 hk) undisturbed]
    exact Memory.read16_congr _ (read_start hm free0) (read_start hm free1)
  · rw [frame a, read_start hm free]
    rintro i hi rfl
    exact out ⟨by omega, by have := (mem_order i).1 hi; omega⟩

/-- R22, R28: memory after `BUF_DEC`'s loop, over any order of its codes: each output is the evaluation of a drawn value, which is
memory's own where no other agent writes the code. -/
theorem decLoop_drawn (hm : Memory.wf s.mem = true)
    (apart : ∀ a, (Procedure.input .bufDec c).has a = true → (Procedure.output .bufDec c).has a = false)
    (perm : order.Perm (List.range c.len)) :
    ∃ d : Nat → Byte, Memory.wf (runSamples (decSample c) order (c.start s)).mem = true ∧
      (∀ k, k < c.len →
        Memory.read16 s.plat.byteOrder (runSamples (decSample c) order (c.start s)).mem (c.outBase + 2 * k) =
          rwDout (eval s.cfg (mkTW (mkDesc c.fmt .dec) (0x00#8 ++ d k)))) ∧
      (∀ k, k < c.len → ¬ writtenBy c.others (c.inBase + k) → d k = Memory.read s.mem (c.inBase + k)) ∧
      ∀ a, ¬ inRegion c.outBase (2 * c.len) a → ¬ writtenBy c.others a →
        Memory.read (runSamples (decSample c) order (c.start s)).mem a = Memory.read s.mem a := by
  have mem_order : ∀ k, k ∈ order ↔ k < c.len := fun k => perm.mem_iff.trans List.mem_range
  have bytes_apart : ∀ i < c.len, ∀ j < c.len,
      c.outBase + 2 * i ≠ c.inBase + j ∧ c.outBase + 2 * i + 1 ≠ c.inBase + j := by
    intro i hi j hj
    have code := apart (c.inBase + j)
    simp only [has_iff, has_eq_false_iff, Procedure.input, Procedure.output, inRegion] at code
    omega
  obtain ⟨d, wf, outputs, frame, drawn⟩ := decLoop_memory c _ bytes_apart order (c.start s) (Access.wf_applyAll hm _)
    (perm.nodup_iff.2 List.nodup_range) fun i hi => (mem_order i).1 hi
  refine ⟨d, wf, fun k hk => ?_, fun k hk free => ?_, fun a out free => ?_⟩
  · rw [← decSampleResult_dout]
    exact outputs k ((mem_order k).2 hk)
  · have undisturbed : c.disturbed ⟨c.inBase + k, 1⟩ = false := by
      rw [disturbed_eq_false_iff]
      intro a ha
      obtain rfl : a = c.inBase + k := by simp only [inRegion] at ha; omega
      exact free
    rw [drawn k ((mem_order k).2 hk) undisturbed, read_start hm free]
  · rw [frame a, read_start hm free]
    intro i hi
    have := (mem_order i).1 hi
    simp only [inRegion] at out
    omega

end

/-- All that a loop leaves alone, as one equation. -/
theorem eq_with_of_sameHost {s t : State} (h : SameHost s t) :
    t = { s with out := t.out, mem := t.mem, ret := t.ret, statusRecord := t.statusRecord, draws := t.draws } := by
  cases s
  cases t
  obtain ⟨rfl, rfl, rfl, rfl, rfl⟩ := h
  rfl

/-- Settles O53: each loop's drawn values, its status and its frame, at the ascending order. -/
theorem disturbedSampleIsDrawn : Obligations.DisturbedSampleIsDrawn := by
  unfold Obligations.DisturbedSampleIsDrawn
  intro s c hw hm
  constructor
  · intro keeps
    obtain ⟨d, _, outputs, drawn, frame⟩ := encLoop_drawn hm keeps.apart (.refl _)
    obtain ⟨ret, record⟩ := Procedure.loop_status .bufEnc c (.refl _) s
    rw [Procedure.note_status] at record
    exact ⟨_, d, Procedure.call_next .bufEnc hw keeps, outputs, drawn, frame, ret, record,
      eq_with_of_sameHost (Procedure.loop_sameHost .bufEnc c _ s)⟩
  · intro keeps
    obtain ⟨d, _, outputs, drawn, frame⟩ := decLoop_drawn hm keeps.apart (.refl _)
    obtain ⟨ret, record⟩ := Procedure.loop_status .bufDec c (.refl _) s
    rw [Procedure.note_status] at record
    exact ⟨_, d, Procedure.call_next .bufDec hw keeps, outputs, drawn, frame, ret, record,
      eq_with_of_sameHost (Procedure.loop_sameHost .bufDec c _ s)⟩

end Sys2Proof.Claims

/-! PROOFS. Calls with no other agent at work (R19, R21, R22, R26, R91): the memory a call leaves is determined by its inputs. -/

namespace Sys2Proof.Claims

open Sys2Proof.Machine

/-- R21, R22: `m` holds, at a call's output addresses, the evaluations of the input samples as `s` holds them. -/
def Procedure.Outputs : Procedure → BufCall → State → Memory → Prop
  | .bufEnc, c, s, m => ∀ k, k < c.len / 2 → Memory.read m (c.outBase + k) =
      (eval s.cfg (mkTW (mkDesc c.fmt .enc) (Memory.read16 s.plat.byteOrder s.mem (c.inBase + 2 * k)))).extractLsb' 0 8
  | .bufDec, c, s, m => ∀ k, k < c.len → Memory.read16 s.plat.byteOrder m (c.outBase + 2 * k) =
      rwDout (eval s.cfg (mkTW (mkDesc c.fmt .dec) (0x00#8 ++ Memory.read s.mem (c.inBase + k))))

/-- R21, R22: `m` is memory after a call from `s` with no other agent at work. -/
structure Procedure.Fills (p : Procedure) (c : BufCall) (s : State) (m : Memory) : Prop where
  wf : Memory.wf m = true
  outputs : p.Outputs c s m
  frame : ∀ a, ¬ inRegion (p.output c).base (p.output c).size a → Memory.read m a = Memory.read s.mem a

/-- R21, R22: `t` is what a call from `s` with no other agent at work ends in, but for the ports. -/
structure Procedure.Effect (p : Procedure) (c : BufCall) (s t : State) : Prop where
  fills : p.Fills c s t.mem
  ret : t.ret = some (p.status c)
  record : t.statusRecord = s.statusRecord.note (p.status c)
  sameHost : SameHost s t
  draws : t.draws = s.draws

section
variable {p : Procedure} {c : BufCall} {s s' t : State} {m m' : Memory} {order : List Nat}

/-- Equal inputs give equal bytes at every output address. -/
theorem Procedure.Outputs.read_eq (h : p.Outputs c s m) (h' : p.Outputs c s' m') (hcfg : s'.cfg = s.cfg)
    (hplat : s'.plat = s.plat)
    (inputs : ∀ a, inRegion (p.input c).base (p.input c).size a → Memory.read s'.mem a = Memory.read s.mem a)
    {a : Nat} (ha : inRegion (p.output c).base (p.output c).size a) : Memory.read m a = Memory.read m' a := by
  cases p with
  | bufEnc =>
    obtain ⟨k, rfl⟩ := Nat.exists_eq_add_of_le ha.1
    have hk : k < c.len / 2 := by simpa [inRegion, Procedure.output] using ha
    have sample : Memory.read16 s'.plat.byteOrder s'.mem (c.inBase + 2 * k) =
        Memory.read16 s.plat.byteOrder s.mem (c.inBase + 2 * k) := by
      rw [hplat]
      apply Memory.read16_congr <;> apply inputs <;> simp only [inRegion, Procedure.input] <;> omega
    exact (h k hk).trans (by rw [← sample, ← hcfg]; exact (h' k hk).symm)
  | bufDec =>
    obtain ⟨j, rfl⟩ := Nat.exists_eq_add_of_le ha.1
    have hj : j < 2 * c.len := by simpa [inRegion, Procedure.output] using ha
    have hk : j / 2 < c.len := by omega
    have code : Memory.read s'.mem (c.inBase + j / 2) = Memory.read s.mem (c.inBase + j / 2) := by
      apply inputs
      simp only [inRegion, Procedure.input]
      omega
    have samples : Memory.read16 s.plat.byteOrder m (c.outBase + 2 * (j / 2)) =
        Memory.read16 s.plat.byteOrder m' (c.outBase + 2 * (j / 2)) :=
      (h _ hk).trans (by rw [← code, ← hcfg, ← hplat]; exact (h' _ hk).symm)
    obtain ⟨first, second⟩ := bytes_eq_of_read16_eq samples
    show Memory.read m (c.outBase + j) = Memory.read m' (c.outBase + j)
    obtain e | e : j = 2 * (j / 2) ∨ j = 2 * (j / 2) + 1 := by omega
    · rw [e]; exact first
    · rw [e]; exact second

/-- Two memories that fill a call's output from equal inputs, and agree elsewhere, are equal. -/
theorem Procedure.Fills.eq (h : p.Fills c s m) (h' : p.Fills c s' m') (hcfg : s'.cfg = s.cfg) (hplat : s'.plat = s.plat)
    (inputs : ∀ a, inRegion (p.input c).base (p.input c).size a → Memory.read s'.mem a = Memory.read s.mem a)
    (elsewhere : ∀ a, ¬ inRegion (p.output c).base (p.output c).size a → Memory.read m a = Memory.read m' a) : m = m' := by
  refine Memory.ext_read h.wf h'.wf fun a => ?_
  by_cases ha : inRegion (p.output c).base (p.output c).size a
  · exact h.outputs.read_eq h'.outputs hcfg hplat inputs ha
  · exact elsewhere a ha

/-- R26: the loop over any order of the samples fills the call's output. -/
theorem Procedure.loop_fills (hm : Memory.wf s.mem = true) (quiet : c.others = [])
    (apart : ∀ a, (p.input c).has a = true → (p.output c).has a = false) (perm : order.Perm (List.range (p.samples c))) :
    p.Fills c s (runSamples (p.turn c) order (c.start s)).mem := by
  have free : ∀ a, ¬ writtenBy c.others a := fun a => quiet ▸ not_writtenBy_nil a
  cases p with
  | bufEnc =>
    obtain ⟨d, wf, outputs, drawn, frame⟩ := encLoop_drawn hm apart perm
    refine ⟨wf, fun k hk => ?_, fun a ha => frame a ha (free a)⟩
    rw [← drawn k hk (free _) (free _)]
    exact outputs k hk
  | bufDec =>
    obtain ⟨d, wf, outputs, drawn, frame⟩ := decLoop_drawn hm apart perm
    refine ⟨wf, fun k hk => ?_, fun a ha => frame a ha (free a)⟩
    rw [← drawn k hk (free _)]
    exact outputs k hk

/-- With no other agent at work nothing is drawn (R28). -/
theorem Procedure.loop_draws (quiet : c.others = []) : (runSamples (p.turn c) order (c.start s)).draws = s.draws := by
  have undisturbed : ∀ r, c.disturbed r = false := by simp [BufCall.disturbed, quiet]
  refine runSamples_induction (P := fun u => u.draws = s.draws) order rfl fun u i _ hu => ?_
  cases p <;> simp [Procedure.turn, encSample, decSample, undisturbed, hu]

/-- R21, R22: a call that keeps the caller's obligations, with no other agent at work, completes with its effect. -/
theorem Procedure.call_effect (hw : s.cfg.wf = true) (hm : Memory.wf s.mem = true) (quiet : c.others = [])
    (keeps : CallerKeeps s c (p.input c) (p.output c)) : ∃ t, p.call c s = .next t ∧ p.Effect c s t := by
  obtain ⟨ret, record⟩ := p.loop_status c (.refl _) s
  exact ⟨_, p.call_next hw keeps,
    ⟨loop_fills hm quiet keeps.apart (.refl _), ret, record, p.loop_sameHost c _ s, loop_draws quiet⟩⟩

/-- All that a call with no other agent at work leaves alone, as one equation. -/
theorem Procedure.Effect.eq_with (h : p.Effect c s t) :
    t = { s with out := t.out, mem := t.mem, ret := t.ret, statusRecord := t.statusRecord } :=
  (eq_with_of_sameHost h.sameHost).trans (by rw [h.draws])

/-- The caller's obligations rest on nothing a call changes. -/
theorem callerKeeps_of_sameHost {inR outR : Region} (h : SameHost s t) (keeps : CallerKeeps s c inR outR) :
    CallerKeeps t c inR outR := by
  have exists_eq : t.addressExists = s.addressExists := by funext a; rw [State.addressExists, h.plat]; rfl
  have owns_eq : t.owns = s.owns := by funext a; rw [State.owns, exists_eq, h.owned]; rfl
  exact ⟨keeps.apart, owns_eq ▸ keeps.ownsIn, owns_eq ▸ keeps.ownsOut, keeps.noRace, exists_eq ▸ keeps.othersExist⟩

/-- A further call after a call completes with its own effect. -/
theorem Procedure.Effect.call_next {q : Procedure} {d : BufCall} (h : p.Effect c s t) (hw : s.cfg.wf = true)
    (quiet : d.others = []) (keeps : CallerKeeps s d (q.input d) (q.output d)) :
    ∃ u, q.call d t = .next u ∧ q.Effect d t u :=
  call_effect (by rw [h.sameHost.cfg, hw]) h.fills.wf quiet (callerKeeps_of_sameHost h.sameHost keeps)

end

/-- Settles O47: the effect of a `BUF_ENC` call with no other agent at work. -/
theorem bufEncEncodesEverySample : Obligations.BufEncEncodesEverySample := by
  unfold Obligations.BufEncEncodesEverySample
  intro s c hw hm quiet keeps
  obtain ⟨t, call, effect⟩ := Procedure.call_effect (p := .bufEnc) hw hm quiet keeps
  exact ⟨t, call, effect.fills.outputs, effect.fills.frame, effect.ret,
    effect.record.trans (Procedure.note_status .bufEnc c _), effect.eq_with⟩

/-- Settles O48: the effect of a `BUF_DEC` call with no other agent at work. -/
theorem bufDecDecodesEveryCode : Obligations.BufDecDecodesEveryCode := by
  unfold Obligations.BufDecDecodesEveryCode
  intro s c hw hm quiet keeps
  obtain ⟨t, call, effect⟩ := Procedure.call_effect (p := .bufDec) hw hm quiet keeps
  exact ⟨t, call, effect.fills.outputs, effect.fills.frame, effect.ret,
    effect.record.trans (Procedure.note_status .bufDec c _), effect.eq_with⟩

/-- R19: the second call finds the first call's inputs, so it writes the same bytes. -/
theorem Procedure.call_twice (p : Procedure) {s : State} {c : BufCall} (hw : s.cfg.wf = true) (hm : Memory.wf s.mem = true)
    (quiet : c.others = []) (keeps : CallerKeeps s c (p.input c) (p.output c)) :
    ∃ t u, p.call c s = .next t ∧ p.call c t = .next u ∧ u.mem = t.mem := by
  obtain ⟨t, first, effect⟩ := call_effect hw hm quiet keeps
  obtain ⟨u, second, again⟩ := effect.call_next hw quiet keeps
  have inputs : ∀ a, inRegion (p.input c).base (p.input c).size a → Memory.read t.mem a = Memory.read s.mem a :=
    fun a ha => effect.fills.frame a ((has_eq_false_iff _ a).1 (keeps.apart a ((has_iff _ a).2 ha)))
  exact ⟨t, u, first, second, (effect.fills.eq again.fills effect.sameHost.cfg effect.sameHost.plat inputs
    fun a ha => (again.fills.frame a ha).symm).symm⟩

/-- Settles O54: either procedure called twice. -/
theorem bufferCallIsIdempotent : Obligations.BufferCallIsIdempotent := by
  unfold Obligations.BufferCallIsIdempotent
  exact fun _ _ hw hm quiet =>
    ⟨Procedure.call_twice .bufEnc hw hm quiet, Procedure.call_twice .bufDec hw hm quiet⟩

/-- R26: two orders of the samples fill the same output from the same inputs. -/
theorem Procedure.loop_perm (p : Procedure) {s : State} {c : BufCall} {order : List Nat} (hm : Memory.wf s.mem = true)
    (quiet : c.others = []) (keeps : CallerKeeps s c (p.input c) (p.output c))
    (perm : order.Perm (List.range (p.samples c))) :
    (runSamples (p.turn c) order (c.start s)).mem =
        (runSamples (p.turn c) (List.range (p.samples c)) (c.start s)).mem ∧
      (runSamples (p.turn c) order (c.start s)).ret =
        (runSamples (p.turn c) (List.range (p.samples c)) (c.start s)).ret := by
  have any := p.loop_fills hm quiet keeps.apart perm
  have ascending := p.loop_fills hm quiet keeps.apart (.refl _)
  exact ⟨any.eq ascending rfl rfl (fun _ _ => rfl) fun a ha => (any.frame a ha).trans (ascending.frame a ha).symm,
    (p.loop_status c perm s).1.trans (p.loop_status c (.refl _) s).1.symm⟩

/-- Settles O55: either procedure's loop over two orders. -/
theorem sampleOrderIsUnobservable : Obligations.SampleOrderIsUnobservable := by
  unfold Obligations.SampleOrderIsUnobservable
  exact fun _ _ _ hm quiet => ⟨Procedure.loop_perm .bufEnc hm quiet, Procedure.loop_perm .bufDec hm quiet⟩

/-- Two statuses are noted in either order (R88). -/
theorem note_comm (rec : StatusRecord) (x y : Status) : (rec.note x).note y = (rec.note y).note x := by
  cases x <;> cases y <;> rfl

/-- R28, R91: the memory two calls leave, one after the other, when each one's output is apart from the other's regions. -/
theorem Procedure.Effect.mem_comm {p q : Procedure} {c d : BufCall} {s t u t' u' : State} (hc : p.Effect c s t)
    (hd : q.Effect d t u) (hd' : q.Effect d s t') (hc' : p.Effect c t' u')
    (apart : ∀ a, inRegion (p.output c).base (p.output c).size a →
      ¬ inRegion (q.output d).base (q.output d).size a ∧ ¬ inRegion (q.input d).base (q.input d).size a)
    (apart' : ∀ a, inRegion (q.output d).base (q.output d).size a → ¬ inRegion (p.input c).base (p.input c).size a) :
    u.mem = u'.mem := by
  have inputs : ∀ a, inRegion (p.input c).base (p.input c).size a → Memory.read t'.mem a = Memory.read s.mem a :=
    fun a hin => hd'.fills.frame a fun hout => apart' a hout hin
  have inputs' : ∀ a, inRegion (q.input d).base (q.input d).size a → Memory.read t.mem a = Memory.read s.mem a :=
    fun a hin => hc.fills.frame a fun hout => (apart a hout).2 hin
  refine Memory.ext_read hd.fills.wf hc'.fills.wf fun a => ?_
  by_cases inC : inRegion (p.output c).base (p.output c).size a
  · calc Memory.read u.mem a
      _ = Memory.read t.mem a := hd.fills.frame a (apart a inC).1
      _ = Memory.read u'.mem a :=
        hc.fills.outputs.read_eq hc'.fills.outputs hd'.sameHost.cfg hd'.sameHost.plat inputs inC
  · rw [hc'.fills.frame a inC]
    by_cases inD : inRegion (q.output d).base (q.output d).size a
    · exact (hd'.fills.outputs.read_eq hd.fills.outputs hc.sameHost.cfg hc.sameHost.plat inputs' inD).symm
    · rw [hd.fills.frame a inD, hc.fills.frame a inC, hd'.fills.frame a inD]

/-- Settles O56: the four calls' effects, whose memories, records and returned statuses are the same in either order. -/
theorem callsSharingInputsCommute : Obligations.CallsSharingInputsCommute := by
  unfold Obligations.CallsSharingInputsCommute
  intro s p q c d hw hm quietC quietD keepsC keepsD apart apart'
  obtain ⟨t, callC, hc⟩ := Procedure.call_effect hw hm quietC keepsC
  obtain ⟨u, callD, hd⟩ := hc.call_next hw quietD keepsD
  obtain ⟨t', callD', hd'⟩ := Procedure.call_effect hw hm quietD keepsD
  obtain ⟨u', callC', hc'⟩ := hd'.call_next hw quietC keepsC
  have record : u.statusRecord = u'.statusRecord := by
    rw [hd.record, hc.record, hc'.record, hd'.record, note_comm]
  exact ⟨t, u, t', u', callC, callD, callD', callC', hc.mem_comm hd hd' hc' apart apart', record,
    hc.ret.trans hc'.ret.symm, hd.ret.trans hd'.ret.symm⟩

end Sys2Proof.Claims

/-! PROOFS. The packed words of the block, field by field: a transaction word (R34 to R36) and a result word (R37). -/

namespace Sys2Proof.Claims

open Sys2Proof.Machine

/-- The number of a concatenation: the high field counts in units of the low field's size. -/
theorem toNat_append_eq_add {m n : Nat} (a : BitVec m) (b : BitVec n) : (a ++ b).toNat = a.toNat * 2 ^ n + b.toNat := by
  rw [BitVec.toNat_append, ← Nat.shiftLeft_add_eq_or_of_lt b.isLt, Nat.shiftLeft_eq]

/-- The number in a field: the word's number without the bits below the field and above it. -/
theorem toNat_field {n : Nat} (w : BitVec n) (start len : Nat) :
    (w.extractLsb' start len).toNat = w.toNat / 2 ^ start % 2 ^ len := by
  rw [BitVec.extractLsb'_toNat, Nat.shiftRight_eq_div_pow]

/-- Settles O5: the number of the concatenation `{status, dout}`, and its two fields. -/
theorem resultWordLayout : Obligations.ResultWordLayout := by
  unfold Obligations.ResultWordLayout
  exact fun r => ⟨toNat_append_eq_add r.status.code r.dout, rwStatus_pack r, rwDout_pack r⟩

/-- R36: a format is known by its bit. -/
theorem formatBit_inj {f g : Format} : f.bit = g.bit ↔ f = g := by cases f <;> cases g <;> decide

/-- R35: an operation is known by its two bits. -/
theorem operationBits_inj {o p : Operation} : o.bits = p.bits ↔ o = p := by cases o <;> cases p <;> decide

/-- R36: the format of a transaction word has the word's bit 18 as its bit. -/
theorem bit_twFormat (w : TW) : (twFormat w).bit = w.extractLsb' 18 1 := by
  unfold twFormat
  generalize w.extractLsb' 18 1 = b
  revert b
  decide

/-- R35: the operation of a transaction word has the word's bits 17 and 16 as its bits. -/
theorem bits_twOperation (w : TW) : (twOperation w).bits = w.extractLsb' 16 2 := by
  unfold twOperation
  generalize w.extractLsb' 16 2 = b
  revert b
  decide

theorem twFormat_eq_iff (w : TW) (f : Format) : twFormat w = f ↔ w.toNat / 262144 = f.bit.toNat := by
  rw [← formatBit_inj, bit_twFormat, ← BitVec.toNat_inj, toNat_field]
  have := w.isLt
  omega

theorem twOperation_eq_iff (w : TW) (o : Operation) : twOperation w = o ↔ w.toNat / 65536 % 4 = o.bits.toNat := by
  rw [← operationBits_inj, bits_twOperation, ← BitVec.toNat_inj, toNat_field]
  rfl

theorem toNat_twDesc (w : TW) : (twDesc w).toNat = w.toNat / 65536 := by
  rw [twDesc, toNat_field]
  have := w.isLt
  omega

theorem toNat_twDin (w : TW) : (twDin w).toNat = w.toNat % 65536 := by
  rw [twDin, toNat_field]
  omega

/-- R34: `fmt` and `op` are the descriptor. -/
theorem mkDesc_fields (w : TW) : mkDesc (twFormat w) (twOperation w) = twDesc w := by
  rw [mkDesc, bit_twFormat, bits_twOperation]
  exact BitVec.extractLsb'_append_extractLsb'_eq_extractLsb' rfl

/-- R34: the descriptor and the operand are the transaction word. -/
theorem mkTW_fields (w : TW) : mkTW (twDesc w) (twDin w) = w := Laws.append_extract (m := 3) (n := 16) w

/-- Settles O4: the fields by their numbers, and the word put together from them again. -/
theorem transactionWordFields : Obligations.TransactionWordFields := by
  unfold Obligations.TransactionWordFields
  exact fun w => ⟨twFormat_eq_iff w .ulaw, twFormat_eq_iff w .alaw, twOperation_eq_iff w .enc, twOperation_eq_iff w .dec,
    twOperation_eq_iff w .seg, twOperation_eq_iff w .reserved, toNat_twDesc w, toNat_twDin w,
    by rw [mkDesc_fields, mkTW_fields]⟩

end Sys2Proof.Claims

/-! PROOFS. The code word's fields (R32), and the ones the encoder writes (R44). -/

namespace Sys2Proof.Claims

open Sys2Proof.Machine

theorem toNat_not8 (c : Byte) : (not8 c).toNat = 255 - c.toNat := BitVec.toNat_not

theorem toNat_codeSign (c : Byte) : (codeSign c).toNat = (255 - c.toNat) / 128 := by
  have := c.isLt
  rw [codeSign, BitVec.getLsbD, toNat_not8, Nat.toNat_testBit]
  omega

theorem codeSegment_eq (c : Byte) : codeSegment c = (255 - c.toNat) / 16 % 8 := by
  rw [codeSegment, toNat_field, toNat_not8]
  rfl

theorem codeMantissa_eq (c : Byte) : codeMantissa c = (255 - c.toNat) % 16 := by
  rw [codeMantissa, toNat_field, toNat_not8]
  omega

/-- Settles O6: the three fields are the digits of `255 - c`. -/
theorem codeWordFields : Obligations.CodeWordFields := by
  unfold Obligations.CodeWordFields
  intro c
  have := c.isLt
  rw [toNat_codeSign, codeSegment_eq, codeMantissa_eq]
  omega

/-- The sign field of a masked byte: the mask's bit 7 stands inverted in it (R53). -/
theorem codeSign_xor (k m : Byte) : codeSign (k ^^^ m) = (k.getLsbD 7 ^^ !m.getLsbD 7) := by
  simp [codeSign, not8]

/-- The segment field of a masked byte: a mask whose bits 6:4 are ones leaves the byte's own. -/
theorem codeSegment_xor {k m : Byte} (ones : (~~~m).extractLsb' 4 3 = 0#3) :
    codeSegment (k ^^^ m) = k.toNat / 16 % 8 := by
  rw [codeSegment, not8, BitVec.not_xor_right, BitVec.extractLsb'_xor, ones, BitVec.xor_zero, toNat_field]
  rfl

/-- The mantissa field of a masked byte: a mask whose bits 3:0 are ones leaves the byte's own. -/
theorem codeMantissa_xor {k m : Byte} (ones : (~~~m).extractLsb' 0 4 = 0#4) : codeMantissa (k ^^^ m) = k.toNat % 16 := by
  rw [codeMantissa, not8, BitVec.not_xor_right, BitVec.extractLsb'_xor, ones, BitVec.xor_zero, toNat_field]
  omega

/-- R57, R58, R60: the byte the encoder puts the sign mask on, the composed one or the overflow code. -/
def unmaskedCode (cfg : Cfg) (b : Int) : Byte :=
  if cfg.segCount ≤ findSegment cfg b then cfg.ovfCode else composed cfg b (findSegment cfg b)

theorem codeOfBiased_eq_xor (cfg : Cfg) (b : Int) (mask : Byte) : codeOfBiased cfg b mask = unmaskedCode cfg b ^^^ mask :=
  (apply_ite (· ^^^ mask) _ _ _).symm

section
variable {cfg : Cfg} {b s : Int}

/-- R59: the mantissa is the low hexadecimal digit of the shifted magnitude. -/
theorem mantissa_eq (bits : cfg.mantBits = 4) (seg : Nat) :
    mantissa cfg b seg = b.toNat / 2 ^ (seg + cfg.mantOff) % 16 := by
  rw [mantissa, bits, Nat.and_two_pow_sub_one_eq_mod, Nat.shiftRight_eq_div_pow]

/-- R59: the composed byte is the segment and the mantissa as two hexadecimal digits. -/
theorem toNat_composed (bits : cfg.mantBits = 4) {seg : Nat} (hseg : seg < 8) :
    (composed cfg b seg).toNat = 16 * seg + mantissa cfg b seg := by
  have digit : mantissa cfg b seg < 2 ^ 4 := by rw [mantissa_eq bits]; exact Nat.mod_lt _ (by decide)
  rw [composed, bits, ← Nat.shiftLeft_add_eq_or_of_lt digit, Nat.shiftLeft_eq, BitVec.toNat_ofNat]
  omega

theorem toNat_unmaskedCode (hw : cfg.wf = true) (found : findSegment cfg b < 8) : (unmaskedCode cfg b).toNat =
    16 * findSegment cfg b + b.toNat / 2 ^ (findSegment cfg b + cfg.mantOff) % 16 := by
  obtain ⟨_, _, count, bits, _, _, _⟩ := (Cfg.wf_iff cfg).1 hw
  rw [unmaskedCode, if_neg (by omega), toNat_composed bits found, mantissa_eq bits]

theorem unmaskedCode_exhausted (hw : cfg.wf = true) (exhausted : findSegment cfg b = 8) :
    unmaskedCode cfg b = cfg.ovfCode := by
  obtain ⟨_, _, count, _, _, _, _⟩ := (Cfg.wf_iff cfg).1 hw
  exact if_pos (by omega)

/-- Bit 7 of the byte is free for the sign on both branches. -/
theorem unmaskedCode_bit7 (hw : cfg.wf = true) (ovf : cfg.ovfCode = 0x7F#8) : (unmaskedCode cfg b).getLsbD 7 = false := by
  apply Nat.testBit_lt_two_pow
  obtain found | exhausted := Nat.lt_or_eq_of_le (findSegment_le cfg b)
  · rw [toNat_unmaskedCode hw found]
    omega
  · rw [unmaskedCode_exhausted hw exhausted, ovf]
    decide

/-- R53: the sign mask under the two masks that differ in bit 7 only. -/
theorem signMask_eq (pos : cfg.posMask = 0xFF) (neg : cfg.negMask = 0x7F) :
    signMask cfg s = if s < 0 then 0x7F#8 else 0xFF#8 := by
  rw [signMask, pos, neg]
  split <;> rfl

end

/-- Settles O24: under either mask the code's E and Q are the unmasked byte's digits, and its S is the mask's choice of sign. -/
theorem encoderWritesSignSegmentMantissa : Obligations.EncoderWritesSignSegmentMantissa := by
  unfold Obligations.EncoderWritesSignSegmentMantissa
  intro cfg x hw pos neg ovf
  have mask := signMask_eq (s := preShifted cfg x) pos neg
  have segment : codeSegment (ulawCode cfg x) = (unmaskedCode cfg (biased cfg x)).toNat / 16 % 8 := by
    rw [ulawCode, codeOfBiased_eq_xor, codeSegment_xor (by rw [mask]; split <;> decide)]
  have mant : codeMantissa (ulawCode cfg x) = (unmaskedCode cfg (biased cfg x)).toNat % 16 := by
    rw [ulawCode, codeOfBiased_eq_xor, codeMantissa_xor (by rw [mask]; split <;> decide)]
  refine ⟨?_, fun found => ?_, fun exhausted => ?_⟩
  · rw [ulawCode, codeOfBiased_eq_xor, codeSign_xor, unmaskedCode_bit7 hw ovf, mask]
    split <;> simp [*]
  · rw [segment, mant, toNat_unmaskedCode hw found]
    omega
  · rw [segment, mant, unmaskedCode_exhausted hw exhausted, ovf]
    decide

end Sys2Proof.Claims

/-! PROOFS. The segment search: SEG_SEARCH is `find_segment` on the ports (R45, R46), a record's boundaries cut the integers where
that index steps (R5, R46), and with that the hardware structures (R47), the closed form (R48) and monotonicity (R49). -/

namespace Sys2Proof.Claims

open Sys2Proof.Machine

/-- R34, R42: a transaction word is its row's word for operand 0 with the operand in the low bits. -/
theorem mkTW_eq_or (d : Desc) (din : Word16) : mkTW d din = mkTW d 0x0000#16 ||| BitVec.ofNat 19 din.toNat := by
  have low : mkTW 0#3 din = BitVec.ofNat 19 din.toNat := by
    apply BitVec.eq_of_toNat_eq
    rw [mkTW, toNat_append_eq_add, BitVec.toNat_ofNat, BitVec.toNat_ofNat]
    omega
  have fields : mkTW d 0x0000#16 ||| mkTW 0#3 din = mkTW (d ||| 0#3) (0x0000#16 ||| din) := BitVec.or_append
  rw [← low, fields, BitVec.or_zero, BitVec.zero_or]

/-- R37: with status OK the result word is the number on `dout`. -/
theorem pack_okWith_ofNat {n : Nat} (fits : n < 2 ^ 16) : (EvalResult.okWith (BitVec.ofNat 16 n)).pack = BitVec.ofNat 18 n := by
  apply BitVec.eq_of_toNat_eq
  rw [EvalResult.pack, toNat_append_eq_add]
  simp only [EvalResult.okWith, Status.code, BitVec.toNat_ofNat]
  omega

/-- R45: SEG_SEARCH completes, and only the ports change: they show `find_segment` of the unsigned operand. -/
theorem exec_segSearch {s : State} (hw : s.cfg.wf = true) (din : Word16) :
    exec (.segSearch din) s = .next { s with out := some (BitVec.ofNat 18 (findSegment s.cfg din.toNat)) } := by
  have fits := findSegment_le s.cfg din.toNat
  rw [exec_next hw, ← pack_okWith_ofNat (by omega)]
  rfl

/-- Settles O16: the word is the row's, and the index with R46's property is the one on the ports. -/
theorem segSearchGivesLeastIndex : Obligations.SegSearchGivesLeastIndex := by
  unfold Obligations.SegSearchGivesLeastIndex
  intro s din hw
  refine ⟨mkTW_eq_or 0b010#3 din, fun i hi found below => ?_, fun exhausted => ?_⟩
  · rw [exec_segSearch hw, findSegment_eq i hi found below]
  · rw [exec_segSearch hw, findSegment_exhausted exhausted]

section
variable {cfg : Cfg} {v w : Int} {i j n : Nat}

/-- An index in 0..8 with exactly the boundaries before it below `v` is `find_segment(v)` (R46). -/
theorem findSegment_eq_of_lt_iff (hn : n ≤ 8) (cut : ∀ j (hj : j < 8), cfg.segTable[j] < v ↔ j < n) : findSegment cfg v = n := by
  obtain found | rfl := Nat.lt_or_eq_of_le hn
  · refine findSegment_eq n found ?_ fun j hj => (cut j (by omega)).2 hj
    exact Int.not_lt.1 fun below => Nat.lt_irrefl n ((cut n found).1 below)
  · exact findSegment_exhausted fun j hj => (cut j hj).2 hj

/-- R49: `find_segment` is monotone. -/
theorem findSegment_mono (cfg : Cfg) (h : v ≤ w) : findSegment cfg v ≤ findSegment cfg w := leastIndex_mono h _

/-- R5: an earlier boundary of a well-formed record is no larger. -/
theorem segTable_mono (hw : cfg.wf = true) (hij : i ≤ j) (hj : j < 8) : cfg.segTable[i] ≤ cfg.segTable[j] := by
  obtain ⟨-, ordered, -⟩ := (Cfg.wf_iff cfg).1 hw
  induction j, hij using Nat.le_induction with
  | base => exact Int.le_refl _
  | succ k _ ih => exact (ih (by omega)).trans (ordered k (by omega))

/-- R46 under R5's order: exactly the boundaries before the index found are below `v`. -/
theorem segTable_lt_iff (hw : cfg.wf = true) (hj : j < 8) : cfg.segTable[j] < v ↔ j < findSegment cfg v := by
  obtain ⟨before, reached⟩ := findSegment_spec cfg v
  refine ⟨fun below => Nat.lt_of_not_le fun past => ?_, before j hj⟩
  have := reached (by omega)
  have := segTable_mono hw past hj
  omega

/-- R5, R11: a well-formed record's boundaries fit the ROM, so each ROM word, read as signed, is its boundary. -/
theorem toInt_romRead (hw : cfg.wf = true) (i : BitVec 3) : (romRead cfg i).toInt = cfg.segTable[i.toNat]'i.isLt := by
  obtain ⟨fits, -⟩ := (Cfg.wf_iff cfg).1 hw
  have := fits i.toNat i.isLt
  exact BitVec.toInt_ofInt_eq_self (by decide) (by omega) (by omega)

/-- R47: comparator `i` is on exactly for the entries before the index `find_segment` gives. -/
theorem comparator_eq (hw : cfg.wf = true) (i : BitVec 3) : comparator cfg v i = decide (i.toNat < findSegment cfg v) := by
  rw [comparator, toInt_romRead hw, decide_eq_decide, segTable_lt_iff hw]

end

/-- Settles O32: each comparator tells whether its entry number is below the index `n`. Counting such comparators and searching
among them then gives `n` for each of the nine indices, and no later one is on while an earlier one is off. -/
theorem comparatorTreeComputesFindSegment : Obligations.ComparatorTreeComputesFindSegment := by
  unfold Obligations.ComparatorTreeComputesFindSegment
  intro cfg v hw
  have range := findSegment_le cfg v
  simp only [comparatorTree, binaryTree, comparator_eq hw]
  generalize findSegment cfg v = n at range
  refine ⟨?_, ?_, fun i j hij later => ?_⟩
  · revert n; decide
  · revert n; decide
  · simp only [decide_eq_true_eq] at later ⊢
    omega

/-- R48: the boundaries of `CFG_DOC`. -/
theorem segTable_cfgDoc : ∀ (i : Nat) (h : i < 8), cfgDoc.segTable[i] = 2 ^ (i + 8) - 1 := by decide

/-- R48: an operand reaches no further than boundary `i` when it has no bit at or above bit `i + 8`. -/
theorem le_segTable_cfgDoc_iff {v i : Nat} (h : i < 8) : (v : Int) ≤ cfgDoc.segTable[i] ↔ v < 2 ^ (i + 8) := by
  rw [segTable_cfgDoc i h, Int.le_sub_one_iff]
  norm_cast

/-- R48: the closed form. The boundaries below a value are those whose power of two it reaches, and its bit length counts them. -/
theorem findSegment_cfgDoc {v : Nat} (hv : v < 2 ^ 16) : findSegment cfgDoc v = if v < 256 then 0 else Nat.log2 v + 1 - 8 := by
  have passed : ∀ j (hj : j < 8), cfgDoc.segTable[j] < (v : Int) ↔ 2 ^ (j + 8) ≤ v := fun j hj => by
    rw [← Int.not_le, le_segTable_cfgDoc_iff hj, Nat.not_lt]
  split
  case isTrue small =>
    refine findSegment_eq_of_lt_iff (by omega) fun j hj => (passed j hj).trans ?_
    have : 2 ^ 8 ≤ 2 ^ (j + 8) := Nat.pow_le_pow_right (by decide) (by omega)
    omega
  case isFalse large =>
    have bits : Nat.log2 v < 16 := (Nat.log2_lt (by omega)).2 hv
    refine findSegment_eq_of_lt_iff (by omega) fun j hj => (passed j hj).trans ?_
    rw [← Nat.le_log2 (by omega)]
    omega

/-- Settles O17: each boundary is one below a power of two, and the operand's bit length counts the ones it passes. -/
theorem segSearchClosedFormUnderDoc : Obligations.SegSearchClosedFormUnderDoc := by
  unfold Obligations.SegSearchClosedFormUnderDoc
  intro s din doc
  refine ⟨fun i h => ⟨segTable_cfgDoc i h, ?_⟩, ?_⟩
  · rw [le_segTable_cfgDoc_iff h, Nat.div_eq_zero_iff_lt (Nat.two_pow_pos _)]
  · rw [exec_segSearch (by rw [doc]; decide), doc, findSegment_cfgDoc din.isLt]

/-- Settles O33: the search over one table is monotone, and SEG_SEARCH shows its indices. -/
theorem segSearchIsMonotone : Obligations.SegSearchIsMonotone := by
  unfold Obligations.SegSearchIsMonotone
  refine ⟨fun cfg v w _ => findSegment_mono cfg, fun s a b hw hab => ?_⟩
  exact ⟨_, _, exec_segSearch hw a, exec_segSearch hw b, findSegment_mono _ (by omega), findSegment_le _ _⟩

end Sys2Proof.Claims

/-! PROOFS. ULAW_ENC under every well-formed record: the quantizer's steps as integer arithmetic (R52 to R56), the code's number
(R57 to R60) and the evaluation (R51). -/

namespace Sys2Proof.Claims

open Sys2Proof.Machine

section
variable {cfg : Cfg} {x sh : Int}

/-- R52: the shifted sample is the integer whose interval of `2 ^ PRE_SHIFT` samples holds `x`. -/
theorem preShifted_eq_of_interval (low : sh * 2 ^ cfg.preShift ≤ x) (high : x < (sh + 1) * 2 ^ cfg.preShift) :
    preShifted cfg x = sh := by
  have positive : (0 : Int) < 2 ^ cfg.preShift := Int.pow_pos (by decide)
  rw [preShifted, asr, Nat.cast_pow, Nat.cast_ofNat, Int.ediv_eq_iff_of_pos positive]
  exact ⟨low, by rwa [Int.add_mul, Int.one_mul] at high⟩

/-- R54: the magnitude is the absolute value. -/
theorem magnitude_eq_natAbs (sh : Int) : magnitude sh = sh.natAbs := by
  rw [magnitude]
  split <;> omega

/-- R55: the clamp is the minimum with CLIP. -/
theorem clamp_eq_min (cfg : Cfg) (mag : Int) : clamp cfg mag = min mag cfg.clip := by
  rw [clamp]
  split <;> omega

/-- R54 to R56: the biased magnitude from the shifted sample. -/
theorem biased_eq (cfg : Cfg) (x : Int) : biased cfg x = min ((preShifted cfg x).natAbs : Int) cfg.clip + cfg.encBias := by
  rw [biased, magnitude_eq_natAbs, clamp_eq_min]

/-- R53: the mask's number is the record's, whose masks R5 holds to a byte. -/
theorem toNat_signMask (hw : cfg.wf = true) (sh : Int) :
    (signMask cfg sh).toNat = if sh < 0 then cfg.negMask else cfg.posMask := by
  obtain ⟨-, -, -, -, -, posByte, negByte⟩ := (Cfg.wf_iff cfg).1 hw
  rw [signMask, BitVec.toNat_ofNat]
  split <;> omega

/-- R58, R60: the code's number is the unmasked byte's under the sign mask. -/
theorem toNat_ulawCode (hw : cfg.wf = true) (x : Int) : (ulawCode cfg x).toNat =
    (unmaskedCode cfg (biased cfg x)).toNat ^^^ if preShifted cfg x < 0 then cfg.negMask else cfg.posMask := by
  rw [ulawCode, codeOfBiased_eq_xor, BitVec.toNat_xor, toNat_signMask hw]

end

/-- R37, R38: a byte shown on `dout` with status OK is the result word of its number. -/
theorem pack_okWith_byte (c : Byte) : (EvalResult.okWith (0x00#8 ++ c)).pack = BitVec.ofNat 18 c.toNat := by
  have byte : 0x00#8 ++ c = BitVec.ofNat 16 c.toNat := by
    apply BitVec.eq_of_toNat_eq
    rw [toNat_append_eq_add, BitVec.toNat_ofNat, BitVec.toNat_ofNat]
    have := c.isLt
    omega
  rw [byte, pack_okWith_ofNat (by have := c.isLt; omega)]

/-- R51: ULAW_ENC completes, and only the ports change: they show the sample's code. -/
theorem exec_ulawEnc {s : State} (hw : s.cfg.wf = true) (din : Word16) :
    exec (.ulawEnc din) s = .next { s with out := some (BitVec.ofNat 18 (ulawCode s.cfg din.toInt).toNat) } := by
  rw [exec_next hw, ← pack_okWith_byte]
  rfl

/-- Settles O11: the shifted sample is the given one, so the code is the byte of the branch `find_segment` takes, masked. -/
theorem ulawEncGivesItsCode : Obligations.UlawEncGivesItsCode := by
  unfold Obligations.UlawEncGivesItsCode
  intro s din sh b mask hw low high hb hmask
  have shifted := preShifted_eq_of_interval low high
  have biasedIs : biased s.cfg din.toInt = b := by rw [biased_eq, shifted, hb]
  have code : (ulawCode s.cfg din.toInt).toNat = (unmaskedCode s.cfg b).toNat ^^^ mask := by
    rw [toNat_ulawCode hw, biasedIs, shifted, hmask]
  refine ⟨mkTW_eq_or 0b000#3 din, fun seg hseg reached below => ?_, fun exhausted => ?_⟩
  · have found := findSegment_eq seg hseg reached below
    rw [exec_ulawEnc hw, code, toNat_unmaskedCode hw (by omega), found, Nat.mul_comm]
  · rw [exec_ulawEnc hw, code, unmaskedCode_exhausted hw (findSegment_exhausted exhausted)]

/-- Settles O23: above every boundary the byte under the mask is the overflow code; its masked values and their fields are
finite facts. -/
theorem overflowBranchGivesTopCode : Obligations.OverflowBranchGivesTopCode := by
  unfold Obligations.OverflowBranchGivesTopCode
  intro cfg b hw ovf exhausted
  have byte : unmaskedCode cfg b = 0x7F#8 := by rw [unmaskedCode_exhausted hw (findSegment_exhausted exhausted), ovf]
  rw [codeOfBiased_eq_xor, codeOfBiased_eq_xor, byte]
  decide

end Sys2Proof.Claims

/-! PROOFS. The encode path under `CFG_DOC` (R61 to R65). Two facts carry it: the biased magnitude lies in its segment's band (R63),
and in such a band, segment 0 below 128 aside, the shifted magnitude is 16 plus the mantissa (R62). -/

namespace Sys2Proof.Claims

open Sys2Proof.Machine

/-- R63: the biased magnitude of a sample under `CFG_DOC`; `x / 4` rounds toward minus infinity. -/
def docBiased (x : Int) : Nat := min (x / 4).natAbs 8158 + 33

/-- R61, R63: the composed byte of a sample under `CFG_DOC`, segment and mantissa as two hexadecimal digits. -/
def docComposed (x : Int) : Nat := 16 * docSegment x + docMantissa x

section
variable {x : Int} {e b q c : Nat}

theorem preShifted_cfgDoc (x : Int) : preShifted cfgDoc x = x / 4 := rfl

theorem cast_docBiased (x : Int) : (docBiased x : Int) = min ((x / 4).natAbs : Int) 8158 + 33 := by
  rw [docBiased, Nat.cast_add, Nat.cast_min]
  rfl

theorem biased_cfgDoc (x : Int) : biased cfgDoc x = docBiased x := by
  rw [biased_eq, cast_docBiased]
  rfl

theorem docMantissa_eq (x : Int) : docMantissa x = docBiased x / 2 ^ (docSegment x + 3) % 16 := rfl

theorem mantissa_cfgDoc (b seg : Nat) : mantissa cfgDoc b seg = b / 2 ^ (seg + 3) % 16 := mantissa_eq rfl seg

/-- R48: `find_segment` by the band of a power of two the value lies in; segment 0 takes everything below its boundary. -/
theorem findSegment_cfgDoc_of_band (he : e < 8) (low : e = 0 ∨ 2 ^ (e + 7) ≤ b) (high : b < 2 ^ (e + 8)) :
    findSegment cfgDoc b = e := by
  refine findSegment_eq e he ((le_segTable_cfgDoc_iff he).2 high) fun j hj => ?_
  rw [← Int.not_le, le_segTable_cfgDoc_iff (by omega)]
  have : 2 ^ (j + 8) ≤ 2 ^ (e + 7) := Nat.pow_le_pow_right (by decide) (by omega)
  omega

/-- R62: a band's two ends in units of the mantissa's step. -/
theorem band_ends (e : Nat) : 2 ^ (e + 7) = 16 * 2 ^ (e + 3) ∧ 2 ^ (e + 8) = 32 * 2 ^ (e + 3) := by
  constructor <;> ring

/-- R62: in the band of a power of two the shifted magnitude lies in 16..31, so the mask of R59 takes 16 off it. -/
theorem shifted_mod_of_band (low : 2 ^ (e + 7) ≤ b) (high : b < 2 ^ (e + 8)) :
    b / 2 ^ (e + 3) % 16 = b / 2 ^ (e + 3) - 16 := by
  obtain ⟨first, last⟩ := band_ends e
  have atLeast : 16 ≤ b / 2 ^ (e + 3) := (Nat.le_div_iff_mul_le (Nat.two_pow_pos _)).2 (by omega)
  have below : b / 2 ^ (e + 3) < 32 := (Nat.div_lt_iff_lt_mul (Nat.two_pow_pos _)).2 (by omega)
  omega

/-- R63: the rule's table puts a sample's biased magnitude in the band of the sample's segment. -/
theorem docBiased_band (x : Int) : docSegment x ≤ 5 ∧ (docSegment x = 0 ∨ 2 ^ (docSegment x + 7) ≤ docBiased x) ∧
    docBiased x < 2 ^ (docSegment x + 8) := by
  unfold docSegment docBiased
  split_ifs <;> omega

theorem docSegment_le (x : Int) : docSegment x ≤ 5 := (docBiased_band x).1

/-- R63: the table of boundaries in `x` is `find_segment` of the biased magnitude. -/
theorem findSegment_docBiased (x : Int) : findSegment cfgDoc (docBiased x) = docSegment x := by
  obtain ⟨range, low, high⟩ := docBiased_band x
  exact findSegment_cfgDoc_of_band (by omega) low high

theorem docMantissa_lt (x : Int) : docMantissa x < 16 := Nat.mod_lt _ (by decide)

/-- R61: the composed byte lies in 0x00..0x5F. -/
theorem docComposed_lt (x : Int) : docComposed x < 96 := by
  have := docSegment_le x
  have := docMantissa_lt x
  rw [docComposed]
  omega

theorem toNat_unmaskedCode_cfgDoc (x : Int) : (unmaskedCode cfgDoc (docBiased x)).toNat = docComposed x := by
  have range := docSegment_le x
  rw [toNat_unmaskedCode (by decide) (by rw [findSegment_docBiased]; omega), findSegment_docBiased]
  rfl

/-- Inverting every bit of an `n`-bit number takes it from the largest one (R60). -/
theorem xor_ones_eq_sub {n k : Nat} (h : k < 2 ^ n) : k ^^^ (2 ^ n - 1) = 2 ^ n - 1 - k := by
  have inverted := congrArg BitVec.toNat (BitVec.xor_allOnes (x := BitVec.ofNat n k))
  rwa [BitVec.toNat_xor, BitVec.toNat_not, BitVec.toNat_ofNat, BitVec.toNat_allOnes, Nat.mod_eq_of_lt h] at inverted

/-- R63: the code of a sample under `CFG_DOC`. The byte below the mask has seven bits, and either mask inverts them. -/
theorem toNat_ulawCode_cfgDoc (x : Int) : (ulawCode cfgDoc x).toNat = docCode x := by
  have range := docComposed_lt x
  rw [toNat_ulawCode (by decide), biased_cfgDoc, toNat_unmaskedCode_cfgDoc, preShifted_cfgDoc, docCode, ← docComposed]
  by_cases sign : 0 ≤ x
  · rw [if_pos sign, if_neg (by omega)]
    exact xor_ones_eq_sub (n := 8) (by omega)
  · rw [if_neg sign, if_pos (by omega)]
    exact xor_ones_eq_sub (n := 7) (by omega)

/-- R60, R63: with the composed byte's range, the code of a non-negative sample is at least 0xA0, and of a negative one 0x20..0x7F. -/
theorem docCode_eq_sub (x : Int) : 0 ≤ x ∧ docCode x = 255 - docComposed x ∨ x < 0 ∧ docCode x = 127 - docComposed x := by
  rw [docCode, ← docComposed]
  split <;> omega

/-- R63: ULAW_ENC under `CFG_DOC` completes, and only the ports change: they show the code of the rule's table. -/
theorem exec_ulawEnc_cfgDoc {s : State} (doc : s.cfg = cfgDoc) (din : Word16) :
    exec (.ulawEnc din) s = .next { s with out := some (BitVec.ofNat 18 (docCode din.toInt)) } := by
  rw [exec_ulawEnc (by rw [doc]; decide), doc, toNat_ulawCode_cfgDoc]

/-- ULAW_ENC under `CFG_DOC` shows a given number exactly when that is the sample's code. -/
theorem exec_ulawEnc_cfgDoc_iff {s : State} (doc : s.cfg = cfgDoc) (din : Word16) (fits : c < 256) :
    exec (.ulawEnc din) s = .next { s with out := some (BitVec.ofNat 18 c) } ↔ docCode din.toInt = c := by
  rw [exec_ulawEnc_cfgDoc doc]
  refine ⟨fun same => ?_, fun same => by rw [same]⟩
  have word := congrArg BitVec.toNat (Option.some.inj (congrArg State.out (Host.Outcome.next.inj same)))
  have := docCode_eq_sub din.toInt
  rw [BitVec.toNat_ofNat, BitVec.toNat_ofNat] at word
  omega

/-- R62: every segment up to 5 has every mantissa: the biased magnitude `(16 + q) * 2 ^ (e + 3)` composes to them. -/
theorem docComposed_of_docBiased (he : e ≤ 5) (hq : q < 16) (h : docBiased x = (16 + q) * 2 ^ (e + 3)) :
    docComposed x = 16 * e + q := by
  obtain ⟨first, last⟩ := band_ends e
  have step : 0 < 2 ^ (e + 3) := Nat.two_pow_pos _
  have low : 2 ^ (e + 7) ≤ docBiased x := by rw [h, first]; exact Nat.mul_le_mul_right _ (by omega)
  have high : docBiased x < 2 ^ (e + 8) := by rw [h, last]; exact Nat.mul_lt_mul_of_pos_right (by omega) step
  have segment : docSegment x = e := by
    rw [← findSegment_docBiased, findSegment_cfgDoc_of_band (by omega) (.inr low) high]
  rw [docComposed, docMantissa_eq, segment, h, Nat.mul_div_cancel _ step]
  omega

/-- A sample in the 16-bit range is an operand's signed value (R33). -/
theorem exists_toInt_eq (low : -32768 ≤ x) (high : x ≤ 32767) : ∃ din : Word16, din.toInt = x :=
  ⟨BitVec.ofInt 16 x, BitVec.toInt_ofInt_eq_self (by decide) low (by omega)⟩

/-- R62: every composed byte up to 0x5F is that of a sample of either sign, at four times the magnitude and its negation. -/
theorem exists_sample_of_composed {k : Nat} (hk : k < 96) : (∃ din : Word16, 0 ≤ din.toInt ∧ docComposed din.toInt = k) ∧
    ∃ din : Word16, din.toInt < 0 ∧ docComposed din.toInt = k := by
  have low : 16 * 2 ^ 3 ≤ (16 + k % 16) * 2 ^ (k / 16 + 3) :=
    Nat.mul_le_mul (by omega) (Nat.pow_le_pow_right (by decide) (by omega))
  have high : (16 + k % 16) * 2 ^ (k / 16 + 3) ≤ 31 * 2 ^ 8 :=
    Nat.mul_le_mul (by omega) (Nat.pow_le_pow_right (by decide) (by omega))
  obtain ⟨m, hm⟩ : ∃ m, m + 33 = (16 + k % 16) * 2 ^ (k / 16 + 3) := ⟨_, Nat.sub_add_cancel (by omega)⟩
  have composes (x : Int) (hx : (x / 4).natAbs = m) : docComposed x = k := by
    rw [docComposed_of_docBiased (e := k / 16) (q := k % 16) (by omega) (by omega) (by rw [docBiased]; omega)]
    omega
  obtain ⟨pos, hpos⟩ := exists_toInt_eq (x := 4 * m) (by omega) (by omega)
  obtain ⟨neg, hneg⟩ := exists_toInt_eq (x := -4 * m) (by omega) (by omega)
  exact ⟨⟨pos, by omega, composes _ (by omega)⟩, neg, by omega, composes _ (by omega)⟩

/-- R65: the largest composed byte is taken exactly from the biased magnitude 7936 = 31 * 256 on. -/
theorem docComposed_eq_top_iff (x : Int) : docComposed x = 95 ↔ 7936 ≤ docBiased x := by
  obtain ⟨range, low, high⟩ := docBiased_band x
  have digit := docMantissa_lt x
  have mant := docMantissa_eq x
  rw [docComposed]
  constructor
  · intro top
    have segment : docSegment x = 5 := by omega
    rw [segment] at mant low high
    omega
  · intro above
    have segment : docSegment x = 5 := by
      rw [← findSegment_docBiased]
      exact findSegment_cfgDoc_of_band (by decide) (by omega) (by rw [docBiased]; omega)
    rw [segment] at mant high ⊢
    omega

/-- R62: a byte is the code of some operand exactly when its E field is at most 5. -/
theorem exists_docCode_eq_iff (byte : c < 256) :
    (∃ din : Word16, docCode din.toInt = c) ↔ (32 ≤ c ∧ c ≤ 127) ∨ 160 ≤ c := by
  constructor
  · rintro ⟨din, rfl⟩
    have := docCode_eq_sub din.toInt
    have := docComposed_lt din.toInt
    omega
  · rintro (negative | nonNegative)
    · obtain ⟨-, din, sign, composes⟩ := exists_sample_of_composed (k := 127 - c) (by omega)
      have := docCode_eq_sub din.toInt
      exact ⟨din, by omega⟩
    · obtain ⟨⟨din, sign, composes⟩, -⟩ := exists_sample_of_composed (k := 255 - c) (by omega)
      have := docCode_eq_sub din.toInt
      exact ⟨din, by omega⟩

end

/-- Settles O12: the evaluation with the table's code, and the table against `find_segment`. -/
theorem ulawEncUnderDoc : Obligations.UlawEncUnderDoc := by
  unfold Obligations.UlawEncUnderDoc
  refine fun s din doc => ⟨exec_ulawEnc_cfgDoc doc din, ?_⟩
  rw [← cast_docBiased, findSegment_docBiased]

/-- Settles O22: every value of the front end is arithmetic on `x / 4`, which keeps the sign. -/
theorem quantizerUnderDoc : Obligations.QuantizerUnderDoc := by
  unfold Obligations.QuantizerUnderDoc
  intro x low high
  have sign : x / 4 < 0 ↔ x < 0 := by omega
  have clip : cfgDoc.clip = 8158 := rfl
  rw [biased_cfgDoc, cast_docBiased, clamp_eq_min, magnitude_eq_natAbs, preShifted_cfgDoc, clip, signMask_eq rfl rfl]
  exact ⟨by omega, sign, by simp only [sign], rfl, by omega⟩

/-- Settles O25: S is the sign of the shifted sample (R44), which is the sample's, and bit 7 of the code is S inverted. -/
theorem encoderPreservesSign : Obligations.EncoderPreservesSign := by
  unfold Obligations.EncoderPreservesSign
  intro s din doc
  refine ⟨_, _, exec_ulawEnc (by rw [doc]; decide) din, rfl, ?_⟩
  obtain ⟨sign, -, -⟩ := encoderWritesSignSegmentMantissa cfgDoc din.toInt (by decide) rfl rfl rfl
  have shifted : preShifted cfgDoc din.toInt < 0 ↔ din.toInt < 0 := by rw [preShifted_cfgDoc]; omega
  rw [doc]
  generalize ulawCode cfgDoc din.toInt = code at sign
  have low : (BitVec.ofNat 18 code.toNat).extractLsb' 0 8 = code := by
    apply BitVec.eq_of_toNat_eq
    rw [toNat_field, BitVec.toNat_ofNat]
    have := code.isLt
    omega
  have bit : (BitVec.ofNat 18 code.toNat).getLsbD 7 = !codeSign code := by simp [codeSign, not8]
  rw [low, bit, sign, decide_eq_decide]
  exact ⟨by simp [shifted], shifted⟩

/-- Settles O26: segments, codes and mantissas by the bands of the biased magnitude; the wrap of segment 0 at 379 and 380. -/
theorem encoderReachUnderDoc : Obligations.EncoderReachUnderDoc := by
  unfold Obligations.EncoderReachUnderDoc
  refine ⟨fun x _ _ => ?_, fun s c doc byte => ?_, fun b low high => ⟨?_, ?_⟩, fun s doc => ⟨?_, ?_⟩, fun e b he he' low high => ?_⟩
  · rw [biased_cfgDoc, findSegment_docBiased]
    exact docSegment_le x
  · simp only [exec_ulawEnc_cfgDoc_iff doc _ byte, exists_docCode_eq_iff byte]
  · exact findSegment_cfgDoc_of_band (by decide) (.inl rfl) (by omega)
  · rw [mantissa_cfgDoc]
    split <;> omega
  · exact (exec_ulawEnc_cfgDoc_iff doc _ (c := 0xF0) (by decide)).2 (by decide)
  · exact (exec_ulawEnc_cfgDoc_iff doc _ (c := 0xFF) (by decide)).2 (by decide)
  · have inside : b < 2 ^ (e + 8) := by have := Nat.two_pow_pos (e + 8); omega
    exact ⟨findSegment_cfgDoc_of_band (by omega) (.inr low) inside, by rw [mantissa_cfgDoc, shifted_mod_of_band low inside]⟩

/-- Settles O27: the two top codes are the top composed byte's, whose biased magnitudes are known; from 32632 and -32629 on the
clamp's own value is reached. -/
theorem saturatedRegionUnderDoc : Obligations.SaturatedRegionUnderDoc := by
  unfold Obligations.SaturatedRegionUnderDoc
  intro s din doc
  have code := docCode_eq_sub din.toInt
  have range := docComposed_lt din.toInt
  have top := docComposed_eq_top_iff din.toInt
  rw [docBiased] at top
  refine ⟨?_, ?_, fun saturated => ?_, ?_⟩
  · rw [show 0x000A0#18 = BitVec.ofNat 18 0xA0 from rfl, exec_ulawEnc_cfgDoc_iff doc din (by decide)]
    omega
  · rw [show 0x00020#18 = BitVec.ofNat 18 0x20 from rfl, exec_ulawEnc_cfgDoc_iff doc din (by decide)]
    omega
  · have clamped : docBiased din.toInt = 8191 := by rw [docBiased]; omega
    rw [magnitude_eq_natAbs, preShifted_cfgDoc, biased_cfgDoc, clamped, mantissa_cfgDoc]
    refine ⟨by omega, rfl, ?_, by decide⟩
    exact findSegment_cfgDoc_of_band (by decide) (by decide) (by decide)
  · exact (exec_ulawEnc_cfgDoc_iff doc _ (c := 0xA2) (by decide)).2 (by decide)

/-- Settles O28: the front end's ranges (R52 to R56), the two digits of the composed byte, and the code's two ranges. -/
theorem encoderWidthsUnderDoc : Obligations.EncoderWidthsUnderDoc := by
  unfold Obligations.EncoderWidthsUnderDoc
  intro x low high
  have code := docCode_eq_sub x
  have byte := docComposed_lt x
  have digit := docMantissa_lt x
  have segment := docSegment_le x
  have bounds : 33 ≤ docBiased x ∧ docBiased x ≤ 8191 := by rw [docBiased]; omega
  have mant : mantissa cfgDoc (docBiased x) (docSegment x) = docMantissa x := mantissa_cfgDoc _ _
  have clip : cfgDoc.clip = 8158 := rfl
  rw [toNat_ulawCode_cfgDoc, biased_cfgDoc, findSegment_docBiased, toNat_composed rfl (by omega), mant, clamp_eq_min, clip,
    magnitude_eq_natAbs, preShifted_cfgDoc]
  rw [docComposed] at code byte
  omega

end Sys2Proof.Claims

/-! PROOFS. ULAW_DEC under every well-formed record: the code's fields as the digits of `255 - c` (R66 to R70), the result width
(R71) and the evaluation. -/

namespace Sys2Proof.Claims

open Sys2Proof.Machine

/-- R41, R66: the code is the operand's low byte. -/
theorem toNat_codeOfDin (din : Word16) : (codeOfDin din).toNat = din.toNat % 256 := by
  rw [codeOfDin, toNat_field]
  omega

/-- R32: S is set exactly when the inverted code is at least 128. -/
theorem codeSign_iff (c : Byte) : codeSign c = true ↔ 128 ≤ 255 - c.toNat := by
  rw [← Bool.toNat_eq_one, toNat_codeSign]
  have := c.isLt
  omega

/-- R68, R69: the expanded mantissa, both shifts as products. -/
theorem expanded_eq (cfg : Cfg) (c : Byte) : expanded cfg c =
    ((255 - c.toNat) % 16 * 2 ^ cfg.decScale + cfg.decBias) * 2 ^ ((255 - c.toNat) / 16 % 8) := by
  rw [expanded, scaledMantissa, codeMantissa_eq, codeSegment_eq, Nat.shiftLeft_eq, Nat.shiftLeft_eq]

/-- R66: the expander computes the pseudocode's integer. -/
theorem ulawLinear_eq_linearValue (cfg : Cfg) (c : Byte) : ulawLinear cfg c = linearValue cfg c.toNat := by
  simp only [ulawLinear, linearValue, codeSign_iff, expanded_eq]
  push_cast
  rfl

/-- R37: with status OK the result word is the number of `dout`. -/
theorem pack_okWith (d : Word16) : (EvalResult.okWith d).pack = BitVec.ofNat 18 d.toNat := by
  rw [← pack_okWith_ofNat d.isLt, BitVec.ofNat_toNat, BitVec.setWidth_eq]

/-- R66: ULAW_DEC completes, and only the ports change: they show OK and `s16` of the code's linear value. -/
theorem exec_ulawDec {s : State} (hw : s.cfg.wf = true) (din : Word16) : exec (.ulawDec din) s =
    .next { s with out := some (EvalResult.okWith (s16 (linearValue s.cfg (din.toNat % 256)))).pack } := by
  rw [exec_next hw, ← toNat_codeOfDin, ← ulawLinear_eq_linearValue]
  rfl

section
variable {y : Int}

/-- R71: a linear value in the 16-bit range is shown as its two's-complement pattern. -/
theorem s16_eq_ofInt (low : -32768 ≤ y) (high : y ≤ 32767) : s16 y = BitVec.ofInt 16 y := if_pos ⟨low, high⟩

/-- R71: nothing of a linear value in the 16-bit range is cut off. -/
theorem toInt_s16 (low : -32768 ≤ y) (high : y ≤ 32767) : (s16 y).toInt = y := by
  rw [s16_eq_ofInt low high, BitVec.toInt_ofInt_eq_self (by decide) low (by omega)]

end

/-- Settles O13: the word is the row's, and a linear value in range is shown as its residue modulo `2 ^ 16`. -/
theorem ulawDecGivesItsSample : Obligations.UlawDecGivesItsSample := by
  unfold Obligations.UlawDecGivesItsSample
  rintro s din y hw rfl low high
  refine ⟨mkTW_eq_or 0b001#3 din, ?_⟩
  rw [exec_ulawDec hw, pack_okWith, s16_eq_ofInt low high, BitVec.toNat_ofInt]
  rfl

/-- Settles O14: the `dout` is `s16` of the linear value, whatever pattern that is. -/
theorem ulawDecCompletesOnOpenValues : Obligations.UlawDecCompletesOnOpenValues := by
  unfold Obligations.UlawDecCompletesOnOpenValues
  refine fun cfg y hw => ⟨s16 y, ?_⟩
  rintro s din rfl rfl
  rw [exec_ulawDec hw, pack_okWith]

end Sys2Proof.Claims

/-! PROOFS. The decode path under `CFG_DOC` (R71 to R74): the 256 codes are the two signs of 128 magnitudes, and the encoder puts
every magnitude of segment 1 and up in a lower segment than its code names. -/

namespace Sys2Proof.Claims

open Sys2Proof.Machine

/-- R72: the magnitude `M(E, Q)` of a code's linear value under `CFG_DOC`. -/
def docMagnitude (e q : Nat) : Nat := (8 * q + 33) * 2 ^ e - 33

section
variable {e q c : Nat} {y : Int}

/-- R70: the bias taken off at the sign step is never more than the expanded mantissa. -/
theorem docMagnitude_add_bias (e q : Nat) : docMagnitude e q + 33 = (8 * q + 33) * 2 ^ e := by
  have step : 1 ≤ 2 ^ e := Nat.one_le_two_pow
  have bias : 33 * 1 ≤ (8 * q + 33) * 2 ^ e := Nat.mul_le_mul (by omega) step
  exact Nat.sub_add_cancel bias

/-- R69: the expanded mantissa is at most 153 steps of its segment. -/
theorem docMagnitude_add_bias_le (hq : q < 16) : docMagnitude e q + 33 ≤ 153 * 2 ^ e := by
  rw [docMagnitude_add_bias]
  exact Nat.mul_le_mul_right _ (by omega)

/-- R71: the largest magnitude is M(7, 15). -/
theorem docMagnitude_le (he : e < 8) (hq : q < 16) : docMagnitude e q ≤ 19551 := by
  have steps := docMagnitude_add_bias_le (e := e) hq
  have top : 2 ^ e ≤ 2 ^ 7 := Nat.pow_le_pow_right (by decide) (by omega)
  omega

/-- R73: the magnitude is 0 at E = 0 and Q = 0 only. -/
theorem docMagnitude_eq_zero_iff (e q : Nat) : docMagnitude e q = 0 ↔ e = 0 ∧ q = 0 := by
  have sum := docMagnitude_add_bias e q
  constructor
  · intro zero
    have segment : e = 0 := by
      by_contra nonzero
      have step : 2 ^ 1 ≤ 2 ^ e := Nat.pow_le_pow_right (by decide) (by omega)
      have double : 33 * 2 ^ 1 ≤ (8 * q + 33) * 2 ^ e := Nat.mul_le_mul (by omega) step
      omega
    subst segment
    omega
  · rintro ⟨rfl, rfl⟩
    rfl

/-- R72: the table lists the magnitudes. -/
theorem decodeTable_cell : ∀ e < 8, ∀ q < 16, (decodeTable[e]?.bind (·[q]?)) = some (docMagnitude e q : Int) := by decide

/-- R66, R72: the linear value of the code with the fields S, E and Q is its magnitude under its sign. -/
theorem linearValue_cfgDoc (he : e < 8) (hq : q < 16) {S : Bool} (fields : 255 - c = 128 * S.toNat + (16 * e + q)) :
    linearValue cfgDoc c = if S then -(docMagnitude e q : Int) else docMagnitude e q := by
  have mant : ((255 - c : Nat) : Int) % 16 = q := by omega
  have seg : (255 - c) / 16 % 8 = e := by omega
  have scale : cfgDoc.decScale = 3 := rfl
  have bias : cfgDoc.decBias = 33 := rfl
  have sum : ((q * 2 ^ 3 + (33 : Nat)) * 2 ^ e : Int) = docMagnitude e q + 33 := by
    rw [Int.mul_comm q]
    exact_mod_cast (docMagnitude_add_bias e q).symm
  have sign : 128 ≤ 255 - c ↔ S = true := by
    have := S.toNat_le
    rw [← Bool.toNat_eq_one]
    omega
  simp only [linearValue, mant, seg, scale, bias, sum, sign]
  cases S <;> simp

/-- R72: the code of the cell (E, Q) with S = 0. -/
theorem linearValue_cfgDoc_pos (he : e < 8) (hq : q < 16) : linearValue cfgDoc (0xFF - (16 * e + q)) = docMagnitude e q :=
  linearValue_cfgDoc he hq (S := false) (by simp; omega)

/-- R72: the code of the cell (E, Q) with S = 1. -/
theorem linearValue_cfgDoc_neg (he : e < 8) (hq : q < 16) : linearValue cfgDoc (0x7F - (16 * e + q)) = -docMagnitude e q :=
  linearValue_cfgDoc he hq (S := true) (by simp; omega)

/-- R72: every code is that of a cell of the table, with either sign. -/
theorem exists_tableCell (byte : c < 256) : ∃ e < 8, ∃ q < 16,
    c = 0xFF - (16 * e + q) ∧ linearValue cfgDoc c = docMagnitude e q ∨
    c = 0x7F - (16 * e + q) ∧ linearValue cfgDoc c = -docMagnitude e q := by
  refine ⟨(255 - c) / 16 % 8, by omega, (255 - c) % 16, by omega, ?_⟩
  by_cases sign : 128 ≤ c
  · have code : c = 0xFF - (16 * ((255 - c) / 16 % 8) + (255 - c) % 16) := by omega
    exact .inl ⟨code, by rw [← linearValue_cfgDoc_pos (by omega) (by omega), ← code]⟩
  · have code : c = 0x7F - (16 * ((255 - c) / 16 % 8) + (255 - c) % 16) := by omega
    exact .inr ⟨code, by rw [← linearValue_cfgDoc_neg (by omega) (by omega), ← code]⟩

/-- R71: the linear value of every code lies in [-19551, 19551]. -/
theorem linearValue_cfgDoc_bounds (byte : c < 256) :
    -19551 ≤ linearValue cfgDoc c ∧ linearValue cfgDoc c ≤ 19551 := by
  obtain ⟨e, he, q, hq, cell⟩ := exists_tableCell byte
  have := docMagnitude_le he hq
  omega

/-- R73: exactly the codes 0xFF and 0x7F have the linear value 0. -/
theorem linearValue_cfgDoc_eq_zero_iff (byte : c < 256) : linearValue cfgDoc c = 0 ↔ c = 0xFF ∨ c = 0x7F := by
  obtain ⟨e, he, q, hq, cell⟩ := exists_tableCell byte
  have := docMagnitude_eq_zero_iff e q
  omega

/-- R74: the encoder composes the fields of a magnitude's own code only for E = 0 and Q = 5. Above segment 0 the biased magnitude
is about a quarter of the expanded mantissa and lies in a lower band; in segment 0 it is `2Q + 33`, which gives the mantissa
`(2Q + 33) / 8`. -/
theorem docComposed_eq_iff_of_docMagnitude (he : e < 8) (hq : q < 16) (magn : y.natAbs = docMagnitude e q) :
    docComposed y = 16 * e + q ↔ e = 0 ∧ q = 5 := by
  obtain ⟨-, low, -⟩ := docBiased_band y
  have digit := docMantissa_lt y
  have mant := docMantissa_eq y
  have steps := docMagnitude_add_bias_le (e := e) hq
  have biased : 4 * docBiased y ≤ docMagnitude e q + 136 := by rw [docBiased]; omega
  have segment : docSegment y = e ↔ e = 0 := by
    have band : 2 ^ (docSegment y + 7) = 128 * 2 ^ docSegment y := by ring
    have positive : 0 < 2 ^ docSegment y := Nat.two_pow_pos _
    constructor <;> rintro rfl <;> omega
  have mantissa : e = 0 → docMantissa y = (2 * q + 33) / 8 := by
    rintro rfl
    have quarter : docBiased y = 2 * q + 33 := by
      have := docMagnitude_add_bias 0 q
      rw [docBiased]
      omega
    rw [mant, segment.2 rfl, quarter]
    omega
  rw [docComposed]
  omega

/-- R74: the sample a code decodes to has that code for two codes only. -/
theorem docCode_linearValue_eq_iff (byte : c < 256) : docCode (linearValue cfgDoc c) = c ↔ c = 0x7A ∨ c = 0xFA := by
  have code := docCode_eq_sub (linearValue cfgDoc c)
  have range := docComposed_lt (linearValue cfgDoc c)
  obtain ⟨e, he, q, hq, cell⟩ := exists_tableCell byte
  have zero := docMagnitude_eq_zero_iff e q
  have composes := docComposed_eq_iff_of_docMagnitude (y := linearValue cfgDoc c) he hq (by omega)
  omega

end

theorem low_byte_lt (din : Word16) : din.toNat % 256 < 256 := Nat.mod_lt _ (by decide)

/-- R41: the low byte of an operand put together from two bytes. -/
theorem toNat_append_ofNat_mod (hi : Byte) {c : Nat} (byte : c < 256) : (hi ++ BitVec.ofNat 8 c).toNat % 256 = c := by
  rw [toNat_append_eq_add, BitVec.toNat_ofNat]
  omega

/-- R71: under `CFG_DOC` the `dout` of a code is its linear value, uncut. -/
theorem toInt_rwDout_cfgDoc (din : Word16) :
    (rwDout (0b00#2 ++ BitVec.ofInt 16 (linearValue cfgDoc (din.toNat % 256)))).toInt =
      linearValue cfgDoc (din.toNat % 256) := by
  obtain ⟨low, high⟩ := linearValue_cfgDoc_bounds (low_byte_lt din)
  rw [← s16_eq_ofInt (by omega) (by omega)]
  exact (congrArg BitVec.toInt (rwDout_pack (.okWith _))).trans (toInt_s16 (by omega) (by omega))

/-- R71: ULAW_DEC under `CFG_DOC` completes, and only the ports change: they show OK and the code's linear value as a sample. -/
theorem exec_ulawDec_cfgDoc {s : State} (doc : s.cfg = cfgDoc) (din : Word16) : exec (.ulawDec din) s =
    .next { s with out := some (0b00#2 ++ BitVec.ofInt 16 (linearValue cfgDoc (din.toNat % 256))) } := by
  obtain ⟨low, high⟩ := linearValue_cfgDoc_bounds (low_byte_lt din)
  rw [exec_ulawDec (by rw [doc]; decide), doc, s16_eq_ofInt (by omega) (by omega)]
  rfl

/-- Settles O15: the table lists the magnitudes, and the two codes of a cell are the operand's low byte. -/
theorem decodeTableUnderDoc : Obligations.DecodeTableUnderDoc := by
  unfold Obligations.DecodeTableUnderDoc
  intro s e q hi doc he hq
  refine ⟨docMagnitude e q, decodeTable_cell e he q hq, ?_, ?_, ?_⟩
  · rw [eq_sub_iff_add_eq]
    exact_mod_cast docMagnitude_add_bias e q
  · rw [exec_ulawDec_cfgDoc doc, toNat_append_ofNat_mod hi (by omega), linearValue_cfgDoc_pos he hq]
  · rw [exec_ulawDec_cfgDoc doc, toNat_append_ofNat_mod hi (by omega), linearValue_cfgDoc_neg he hq]

/-- Settles O29: the signed value of `dout` is the linear value, which lies in the range. -/
theorem decoderRangeUnderDoc : Obligations.DecoderRangeUnderDoc := by
  unfold Obligations.DecoderRangeUnderDoc
  intro s din doc
  refine ⟨_, _, exec_ulawDec_cfgDoc doc din, rfl, ?_⟩
  rw [toInt_rwDout_cfgDoc]
  exact ⟨rfl, linearValue_cfgDoc_bounds (low_byte_lt din)⟩

/-- Settles O30: result word 0 is the sample 0, which two codes have as their linear value. -/
theorem twoZerosUnderDoc : Obligations.TwoZerosUnderDoc := by
  unfold Obligations.TwoZerosUnderDoc
  intro s din doc
  rw [exec_ulawDec_cfgDoc doc, ← linearValue_cfgDoc_eq_zero_iff (low_byte_lt din)]
  refine ⟨fun same => ?_, fun zero => by rw [zero]; rfl⟩
  have word := Option.some.inj (congrArg State.out (Host.Outcome.next.inj same))
  rw [← toInt_rwDout_cfgDoc, word]
  rfl

/-- Settles O31: both evaluations complete, and the second one's code is that of the first one's linear value. -/
theorem roundTripHoldsForTwoCodes : Obligations.RoundTripHoldsForTwoCodes := by
  unfold Obligations.RoundTripHoldsForTwoCodes
  intro s din doc
  refine ⟨_, _, _, _, exec_ulawDec_cfgDoc doc din, rfl, exec_ulawEnc_cfgDoc doc _, rfl, ?_⟩
  have := docCode_eq_sub (linearValue cfgDoc (din.toNat % 256))
  rw [toInt_rwDout_cfgDoc, BitVec.toNat_ofNat, Nat.mod_eq_of_lt (by omega), docCode_linearValue_eq_iff (low_byte_lt din)]

end Sys2Proof.Claims

/-! PROOFS. Format dispatch: what raising a status does to the state (R87, R88), the descriptors that always raise one (R76 to R78),
and the µ-law transactions behind the dispatch functions (R75). -/

namespace Sys2Proof.Claims

open Sys2Proof.Machine

/-- R87, R88: a transaction whose result is a raised status completes, shows the status with `dout` 0 and has it recorded. -/
theorem exec_of_raised {s : State} {i : Instr} {st : Status} (hw : s.cfg.wf = true) (raises : resultOf s.cfg i = .raised st) :
    exec i s =
      .next { s with out := some (EvalResult.raised st).pack, statusRecord := s.statusRecord.note st } := by
  rw [exec_next hw, raises]
  rfl

section
variable {s : State} {i : Instr} (hw : s.cfg.wf = true)
include hw

/-- R76, R77: the next state of a request in an unsupported format. -/
theorem exec_unsupportedFormat (raises : resultOf s.cfg i = .raised .unsupportedFormat) : exec i s =
    .next { s with out := some 0x10000#18, statusRecord := { s.statusRecord with unsupportedFormat := true } } := by
  rw [exec_of_raised hw raises, pack_unsupportedFormat]
  rfl

/-- R78: the next state of an illegal operation. -/
theorem exec_illegalOp (raises : resultOf s.cfg i = .raised .illegalOp) : exec i s =
    .next { s with out := some 0x20000#18, statusRecord := { s.statusRecord with illegalOp := true } } := by
  rw [exec_of_raised hw raises, pack_illegalOp]
  rfl

end

/-- R34, R39: a word put together from a descriptor and an operand decodes to the descriptor's row with that operand. -/
theorem decode_mkTW (d : Desc) (din : Word16) : decode (mkTW d din) = decodeDesc d din := by
  rw [decode, Laws.twDesc_mkTW, Laws.twDin_mkTW]

/-- Settles O18: the words are the rows', and both rows raise UNSUPPORTED_FORMAT without reading the operand. -/
theorem alawRequestsRaiseUnsupportedFormat : Obligations.AlawRequestsRaiseUnsupportedFormat := by
  unfold Obligations.AlawRequestsRaiseUnsupportedFormat
  exact fun _ din hw => ⟨mkTW_eq_or 0b100#3 din, mkTW_eq_or 0b101#3 din, exec_unsupportedFormat hw rfl,
    exec_unsupportedFormat hw rfl⟩

/-- Settles O19: the words carry the three descriptors, and each row raises ILLEGAL_OP without reading the operand. -/
theorem reservedDescriptorsRaiseIllegalOp : Obligations.ReservedDescriptorsRaiseIllegalOp := by
  unfold Obligations.ReservedDescriptorsRaiseIllegalOp
  exact fun _ din hw => ⟨Laws.twDesc_mkTW 0b011#3 din, Laws.twDesc_mkTW 0b110#3 din, Laws.twDesc_mkTW 0b111#3 din,
    exec_illegalOp hw rfl, exec_illegalOp hw rfl, exec_illegalOp hw rfl⟩

/-- Settles O20: both dispatch functions branch on the format alone, and format µ-law gives the descriptors 000 and 001. -/
theorem ulawFormatDelegates : Obligations.UlawFormatDelegates := by
  unfold Obligations.UlawFormatDelegates
  exact fun _ x c => ⟨rfl, rfl, decode_mkTW 0b000#3 x, decode_mkTW 0b001#3 (0x00#8 ++ c)⟩

end Sys2Proof.Claims

/-! PROOFS. The statuses (R80, R86): every row reports its descriptor's. -/

namespace Sys2Proof.Claims

open Sys2Proof.Machine

/-- R39: the row a descriptor selects is the row of that descriptor. -/
theorem desc_decodeDesc (d : Desc) (din : Word16) : (decodeDesc d din).desc = d := by
  obtain ⟨n⟩ := d
  fin_cases n <;> rfl

/-- R86: a row's status code by its descriptor, ILLEGAL_OP before UNSUPPORTED_FORMAT. -/
theorem code_status_resultOf (cfg : Cfg) (i : Instr) : (resultOf cfg i).status.code =
    if i.desc = 0b011#3 ∨ i.desc = 0b110#3 ∨ i.desc = 0b111#3 then 0b10#2
    else if i.desc = 0b100#3 ∨ i.desc = 0b101#3 then 0b01#2 else 0b00#2 := by
  cases i <;> rfl

/-- Settles O36: the result word is the selected row's result packed, whose status code is the row's and whose `dout` R80 fixes. -/
theorem statusIsTheDescriptors : Obligations.StatusIsTheDescriptors := by
  unfold Obligations.StatusIsTheDescriptors
  intro s d din hw
  refine ⟨_, _, exec_next hw _, drive_out _ _, ?_, (legalResult_resultOf _ _).2⟩
  rw [rwStatus_pack, code_status_resultOf, decode_mkTW, desc_decodeDesc]

end Sys2Proof.Claims

/-! PROOFS. The output ports (R94): a read gives the ports' value, or the fault that having none, or an impossible one, is. -/

namespace Sys2Proof.Claims

open Sys2Proof.Machine

/-- R94: before the first evaluation completes, the ports have no value. -/
theorem portValue_none {s : State} (h : s.out = none) : s.portValue = .error .outputsNoValue := by
  rw [State.portValue, h]

/-- 93, I17: status 0b11 is no value a port read can give. -/
theorem portValue_statusNeverProduced {s : State} {w : RW} (h : s.out = some w) (hst : rwStatus w = 0b11#2) :
    s.portValue = .error .statusNeverProduced := by
  rw [State.portValue, h]
  exact if_pos ((ofCode_eq_none _).2 hst)

section
variable {s : State} {f : Fault} (hw : s.cfg.wf = true)
include hw

/-- R94: reading ports that have no value faults. -/
theorem execReadPorts_fault (h : s.portValue = .error f) : execReadPorts s = .fault f := by
  rw [execReadPorts, checked_of_wf hw, h]

/-- R94: feeding `dout` on reads the ports, and faults as a read does (log entry 15). -/
theorem execChain_fault (d : Desc) (h : s.portValue = .error f) : execChain d s = .fault f := by
  rw [execChain, checked_of_wf hw, h]

/-- R94: a latency other than 0 makes a read in flight fault. -/
theorem execReadInFlight_fault (w : TW) (hl : 0 < s.plat.evalLatency) : execReadInFlight w s = .fault .outputsInFlight := by
  rw [execReadInFlight, checked_of_wf hw, if_pos hl]

/-- R94: everything a read of a word on the ports does, status 0b11 faulting (93, I17). -/
theorem execReadPorts_some {w : RW} (h : s.out = some w) : execReadPorts s =
    if rwStatus w = 0b11#2 then .fault .statusNeverProduced else .next { s with lastRead := some w } := by
  split
  next hst => exact execReadPorts_fault hw (portValue_statusNeverProduced h hst)
  next hst => exact execReadPorts_next hw (portValue_some h hst)

/-- R94: a read after an evaluation gives its result word, whose status R80 allows. -/
theorem execReadPorts_drive (w : TW) : execReadPorts (s.drive (resultOf s.cfg (decode w))) =
    .next { s.drive (resultOf s.cfg (decode w)) with lastRead := some (eval s.cfg w) } :=
  execReadPorts_next hw (portValue_some (drive_out _ _) (legalResult_resultOf _ _).1)

end

/-- Settles O40: the faults are the ports' missing values and the latency's, and an evaluation leaves its own word to be read. -/
theorem portsHaveNoValueBeforeAnEvaluation : Obligations.PortsHaveNoValueBeforeAnEvaluation := by
  unfold Obligations.PortsHaveNoValueBeforeAnEvaluation
  refine ⟨?noValue, ?inFlight, ?onPorts, ?afterEvaluation⟩
  case noValue =>
    exact fun s d hw hout => ⟨execReadPorts_fault hw (portValue_none hout), execChain_fault hw d (portValue_none hout)⟩
  case inFlight => exact fun s w hw hl => execReadInFlight_fault hw w hl
  case onPorts => exact fun s w hw hout => execReadPorts_some hw hout
  case afterEvaluation =>
    exact fun s w hw => ⟨_, exec_next hw (decode w), execReadPorts_drive hw w, execReadInFlight_next hw⟩

end Sys2Proof.Claims

/-! PROOFS. Decoder and encoder (R34, R39, R40): an instruction is its descriptor with its operand, and so is a transaction
word. -/

namespace Sys2Proof.Claims

/-- R39: an instruction is the row of its descriptor, holding its operand. -/
theorem decodeDesc_desc_din (i : Instr) : decodeDesc i.desc i.din = i := by cases i <;> rfl

/-- R39: the row a descriptor selects holds the operand it is given. -/
theorem din_decodeDesc (d : Desc) (din : Word16) : (decodeDesc d din).din = din := by
  obtain ⟨n⟩ := d
  fin_cases n <;> rfl

theorem decode_encode (i : Instr) : decode (encode i) = i := by
  rw [encode, decode_mkTW, decodeDesc_desc_din]

theorem encode_decode (w : TW) : encode (decode w) = w := by
  rw [encode, decode, desc_decodeDesc, din_decodeDesc, mkTW_fields]

/-- Settles O2: both directions go through the descriptor and the operand. -/
theorem decodeAndEncodeAgree : Obligations.DecodeAndEncodeAgree := by
  unfold Obligations.DecodeAndEncodeAgree
  exact ⟨fun i _ => decode_encode i, encode_decode⟩

/-- Settles O1: each word written out is its descriptor joined with its operand. -/
theorem decodeReadsWordsWrittenOut : Obligations.DecodeReadsWordsWrittenOut := by
  unfold Obligations.DecodeReadsWordsWrittenOut
  exact ⟨decode_mkTW 0b000#3 1000#16, decode_mkTW 0b001#3 0xEE#16, decode_mkTW 0b010#3 300#16,
    decode_mkTW 0b011#3 0xFFFF#16, decode_mkTW 0b100#3 1000#16, decode_mkTW 0b101#3 0xEE#16,
    decode_mkTW 0b110#3 300#16, decode_mkTW 0b111#3 0xABCD#16⟩

end Sys2Proof.Claims

/-! PROOFS. The opcode map (R39): its rows share one mask and differ in their patterns, the descriptors with operand 0. -/

namespace Sys2Proof.Claims

/-- R34, R39: an instruction's word falls in the instruction's own row. -/
theorem rowEncoding : ∀ i : Instr, Laws.RowEncoding.Statement i
  | .ulawEnc din => Laws.RowEncoding.ulawEnc din
  | .ulawDec din => Laws.RowEncoding.ulawDec din
  | .segSearch din => Laws.RowEncoding.segSearch din
  | .reserved011 din => Laws.RowEncoding.reserved011 din
  | .alawEnc din => Laws.RowEncoding.alawEnc din
  | .alawDec din => Laws.RowEncoding.alawDec din
  | .reserved110 din => Laws.RowEncoding.reserved110 din
  | .reserved111 din => Laws.RowEncoding.reserved111 din

theorem row_mem_opcodeTable (i : Instr) : i.row ∈ opcodeTable := (rowEncoding i).1

theorem mask_of_mem_opcodeTable : ∀ r ∈ opcodeTable, r.mask = 0x70000#19 := by decide

/-- R39: a row of the map is known by its pattern. -/
theorem pattern_injOn_opcodeTable : ∀ r ∈ opcodeTable, ∀ q ∈ opcodeTable, r.pattern = q.pattern → r = q := by decide

/-- R39: a row of the map accepts a word whose descriptor, with operand 0, is its pattern. -/
theorem accepts_iff_pattern {r : OpcodeRow} (hr : r ∈ opcodeTable) (w : TW) :
    r.accepts w = true ↔ r.pattern = mkTW (twDesc w) 0x0000#16 := by
  rw [OpcodeRow.accepts, decide_eq_true_eq, mask_of_mem_opcodeTable r hr, ← Laws.mkTW_and_mask (twDesc w) (twDin w),
    mkTW_fields, eq_comm]

/-- R39, R40: the pattern of a word's row is the word's descriptor with operand 0. -/
theorem row_pattern_decode (w : TW) : (decode w).row.pattern = mkTW (twDesc w) 0x0000#16 := by
  have accepted := (rowEncoding (decode w)).2.1
  rwa [encode_decode, accepts_iff_pattern (row_mem_opcodeTable _)] at accepted

/-- R39: a row of the map accepts exactly the words that decode to it. -/
theorem accepts_iff_eq_row {r : OpcodeRow} (hr : r ∈ opcodeTable) (w : TW) : r.accepts w = true ↔ r = (decode w).row := by
  rw [accepts_iff_pattern hr, ← row_pattern_decode]
  exact ⟨pattern_injOn_opcodeTable r hr _ (row_mem_opcodeTable _), congrArg OpcodeRow.pattern⟩

/-- R34, R39: the pattern of a word's row agrees with the word above bit 15. -/
theorem row_pattern_div (w : TW) : (decode w).row.pattern.toNat / 65536 = w.toNat / 65536 := by
  rw [row_pattern_decode, ← toNat_twDesc, Laws.twDesc_mkTW, toNat_twDesc]

/-- Settles O3: the words of a row are those whose descriptor is its pattern's. -/
theorem descriptorSelectsOneRow : Obligations.DescriptorSelectsOneRow := by
  unfold Obligations.DescriptorSelectsOneRow
  exact fun w => ⟨row_mem_opcodeTable _, row_pattern_div w, fun _ hr => accepts_iff_eq_row hr w⟩

end Sys2Proof.Claims

/-! PROOFS. The lines of R43: the word of a line whose operand is in its range, and no word of any other. -/

namespace Sys2Proof.Claims

open Sys2Proof.Machine

theorem word_of_wf {l : Line} (h : l.wf = true) : l.word = l.expand.baseWord := if_pos h

theorem word_of_not_wf {l : Line} (h : ¬ l.wf = true) : l.word = none := if_neg h

theorem isSample_iff (x : Int) : isSample x = true ↔ -32768 ≤ x ∧ x ≤ 32767 := by simp [isSample]

theorem isCode_iff (c : Int) : isCode c = true ↔ 0 ≤ c ∧ c ≤ 255 := by simp [isCode]

theorem seg_wf_iff (v : Int) : (Line.seg v).wf = true ↔ 0 ≤ v ∧ v ≤ 65535 := by simp [Line.wf]

theorem tw_wf_iff (w : Int) : (Line.tw w).wf = true ↔ 0 ≤ w ∧ w < 2 ^ 19 := by simp [Line.wf]

theorem toNat_ofNat_operand {n : Nat} (fits : n < 65536) : (BitVec.ofNat 16 n).toNat = n := by
  rw [BitVec.toNat_ofNat, Nat.mod_eq_of_lt fits]

section
variable {d : Desc} {pattern : TW} (row : mkTW d 0x0000#16 = pattern)
include row

/-- R34, R39: a row's pattern with an operand in the low bits decodes to the row holding that operand. -/
theorem decode_pattern_or (din : Word16) : decode (pattern ||| din.setWidth 19) = decodeDesc d din := by
  rw [← row, ← BitVec.ofNat_toNat, ← mkTW_eq_or, decode_mkTW]

/-- R34, R39: so does the pattern with a number that fits the operand. -/
theorem decode_pattern_or_ofInt {n : Nat} (fits : n < 65536) :
    decode (pattern ||| BitVec.ofInt 19 n) = decodeDesc d (BitVec.ofNat 16 n) := by
  rw [← decode_pattern_or row, ← BitVec.ofNat_toNat, toNat_ofNat_operand fits, BitVec.ofInt_natCast]

end

/-- R43: the words of `ENC.U` and `ENC.A` carry the sample's 16-bit pattern. -/
theorem encLines_decode {x : Int} (low : -32768 ≤ x) (high : x ≤ 32767) :
    (Line.encU x).word.map decode = some (.ulawEnc (BitVec.ofInt 16 x)) ∧
      (Line.encA x).word.map decode = some (.alawEnc (BitVec.ofInt 16 x)) := by
  have sample := (isSample_iff x).2 ⟨low, high⟩
  rw [word_of_wf (l := .encU x) sample, word_of_wf (l := .encA x) sample]
  exact ⟨congrArg some (decode_pattern_or (d := 0b000#3) (by decide) _),
    congrArg some (decode_pattern_or (d := 0b100#3) (by decide) _)⟩

/-- R43: the words of `DEC.U` and `DEC.A` carry the code in the operand's low byte, the high byte being 0. -/
theorem decLines_decode {c : Nat} (byte : c < 256) :
    (Line.decU c).word.map decode = some (.ulawDec (BitVec.ofNat 16 c)) ∧
      (Line.decA c).word.map decode = some (.alawDec (BitVec.ofNat 16 c)) := by
  have code := (isCode_iff c).2 (by omega)
  rw [word_of_wf (l := .decU c) code, word_of_wf (l := .decA c) code]
  exact ⟨congrArg some (decode_pattern_or_ofInt (d := 0b001#3) (by decide) (by omega)),
    congrArg some (decode_pattern_or_ofInt (d := 0b101#3) (by decide) (by omega))⟩

/-- R43: the word of `SEG` carries the unsigned value. -/
theorem segLine_decode {v : Nat} (fits : v < 65536) :
    (Line.seg v).word.map decode = some (.segSearch (BitVec.ofNat 16 v)) := by
  rw [word_of_wf ((seg_wf_iff v).2 (by omega))]
  exact congrArg some (decode_pattern_or_ofInt (d := 0b010#3) (by decide) fits)

/-- R43: `.tw` gives the word it is written with. -/
theorem twLine_word (w : TW) : (Line.tw w.toNat).word = some w := by
  have := w.isLt
  rw [word_of_wf ((tw_wf_iff w.toNat).2 (by omega)), Line.expand, Line.baseWord, BitVec.ofInt_natCast, BitVec.ofNat_toNat,
    BitVec.setWidth_eq]

/-- Settles O7: a line's range check decides whether it has a word, and the word is its row's with the operand. -/
theorem notationWords : Obligations.NotationWords := by
  unfold Obligations.NotationWords
  refine ⟨?samples, ?codes, ?values, twLine_word, fun _ => ⟨rfl, rfl, rfl, rfl, rfl, rfl⟩, ?noSample, ?noCode, ?noValue,
    ?noTw⟩
  case samples => exact fun x low high =>
    ⟨_, BitVec.toInt_ofInt_eq_self (by decide) low (by omega), encLines_decode low high⟩
  case codes => exact fun c byte => ⟨_, toNat_ofNat_operand (by omega), decLines_decode byte⟩
  case values => exact fun v fits => ⟨_, toNat_ofNat_operand fits, segLine_decode fits⟩
  case noSample =>
    intro x out
    have noSample : ¬ isSample x = true := by rw [isSample_iff]; omega
    exact ⟨word_of_not_wf noSample, word_of_not_wf noSample, word_of_not_wf noSample, fun _ => word_of_not_wf noSample⟩
  case noCode =>
    intro c out
    have noCode : ¬ isCode c = true := by rw [isCode_iff]; omega
    exact ⟨word_of_not_wf noCode, word_of_not_wf noCode, word_of_not_wf noCode, fun _ => word_of_not_wf noCode⟩
  case noValue => exact fun v out => word_of_not_wf (by rw [seg_wf_iff]; omega)
  case noTw => exact fun w out => word_of_not_wf (by rw [tw_wf_iff]; omega)

end Sys2Proof.Claims

/-! PROOFS. What every step keeps (R16, R80, R88): the invariant, and the host's record of statuses. -/

namespace Sys2Proof.Machine

/-- Host memory is canonical and holds no byte at or above an address bound (R16). -/
structure Memory.Within (bound : Nat) (m : Memory) : Prop where
  wf : Memory.wf m = true
  lt : ∀ cell ∈ m, cell.1 < bound

namespace Memory.Within
variable {bound : Nat} {m : Memory}

theorem write (h : m.Within bound) {a : Nat} (ha : a < bound) (b : Byte) : (Memory.write m a b).Within bound where
  wf := wf_write h.wf a b
  lt cell listed := by
    obtain old | rfl := mem_write listed
    · exact h.lt cell old
    · exact ha

theorem write16 (h : m.Within bound) {a : Nat} (ha : a + 1 < bound) (o : ByteOrder) (v : Word16) :
    (Memory.write16 o m a v).Within bound := by
  rw [write16_eq]
  exact (h.write (by omega) _).write ha _

/-- R28: other agents' accesses at existing addresses keep memory inside the address space. -/
theorem applyAll (h : m.Within bound) {xs : List Access} (hx : ∀ x ∈ xs, x.addr < bound) :
    Memory.Within bound (xs.foldl Access.apply m) where
  wf := Access.wf_applyAll h.wf xs
  lt cell listed := by
    obtain old | ⟨x, mem, addr⟩ := Access.mem_applyAll xs listed
    · exact h.lt cell old
    · exact addr ▸ hx x mem

end Memory.Within

theorem addressExists_iff (s : State) (a : Nat) : s.addressExists a = true ↔ a < 2 ^ s.plat.addrBits := by
  simp [State.addressExists]

/-- R16, R25: what the caller owns exists. -/
theorem lt_of_owns {s : State} {a : Nat} (h : s.owns a = true) : a < 2 ^ s.plat.addrBits :=
  (addressExists_iff s a).1 (Bool.and_eq_true_iff.1 h).1

/-- R21, R22: an accumulated status is in the record when both statuses are. -/
theorem StatusRecord.holds_accumulate {rec : StatusRecord} {acc st : Status} (hacc : rec.holds acc) (hst : rec.holds st) :
    rec.holds (accumulate acc st) := by
  obtain ⟨e, _⟩ | ⟨e, _⟩ := accumulate_cases acc st <;> rw [e]
  · exact hacc
  · exact hst

namespace State.Inv
variable {s t : State}

theorem within (h : s.Inv) : s.mem.Within (2 ^ s.plat.addrBits) := ⟨h.memWf, h.memExists⟩

/-- Taking an action off the pending ones keeps the invariant. -/
theorem withCmds (h : s.Inv) (rest : List HostCmd) : ({ s with cmds := rest } : State).Inv := { h with }

/-- R16: a change of memory that stays inside the address space keeps the invariant. -/
theorem withMem (h : s.Inv) {m : Memory} (hm : m.Within (2 ^ s.plat.addrBits)) : ({ s with mem := m } : State).Inv :=
  { h with memWf := hm.wf, memExists := hm.lt }

/-- R80, R88: an evaluation's result on the ports is one the block can produce, and its status is noted. -/
theorem drive (h : s.Inv) (cfg : Cfg) (i : Instr) : (s.drive (resultOf cfg i)).Inv :=
  { h with
    outLegal := by
      rintro w ⟨⟩
      exact legalResult_resultOf cfg i
    outRecorded := by
      rintro w st ⟨⟩ code
      rw [rwStatus_pack, ofCode_code] at code
      cases code
      exact note_holds _ _
    readRecorded := fun w st hw code => holds_note (h.readRecorded w st hw code) _
    retRecorded := fun st hst => holds_note (h.retRecorded st hst) _ }

theorem exec (h : s.Inv) {i : Instr} (ran : exec i s = .next t) : t.Inv := by
  obtain ⟨_, rfl⟩ := exec_cases ran
  exact h.drive _ _

/-- R94: what the host reads was on the ports. -/
theorem readPorts (h : s.Inv) (ran : execReadPorts s = .next t) : t.Inv := by
  obtain ⟨w, out, rfl⟩ := execReadPorts_cases ran
  refine { h with readLegal := ?_, readRecorded := ?_ }
  · rintro _ ⟨⟩
    exact h.outLegal w out
  · rintro _ st ⟨⟩ code
    exact h.outRecorded w st out code

theorem store (h : s.Inv) {a : Nat} {b : Byte} (ran : execStore a b s = .next t) : t.Inv := by
  obtain ⟨ha, rfl⟩ := execStore_cases ran
  exact h.withMem (h.within.write ha b)

theorem own (h : s.Inv) {r : Region} (ran : execOwn r s = .next t) : t.Inv := by
  obtain ⟨hr, rfl⟩ := execOwn_cases ran
  exact { h with ownedExists := List.forall_mem_cons.2 ⟨hr, h.ownedExists⟩ }

/-- R21, R22: the accumulator OK, in which a call starts, counts as recorded. -/
theorem start (h : s.Inv) {c : BufCall} (hx : ∀ x ∈ c.others, s.addressExists x.addr = true) : (c.start s).Inv :=
  { h.withMem (h.within.applyAll fun x mem => (addressExists_iff s _).1 (hx x mem)) with
    retRecorded := by
      rintro _ ⟨⟩
      trivial }

/-- R21, R22: one sample's outcome keeps the invariant when its output bytes exist. -/
theorem finishSample (h : s.Inv) (cfg : Cfg) (i : Instr) {m : Memory} (hm : m.Within (2 ^ s.plat.addrBits)) (drawn : Bool) :
    (s.finishSample (resultOf cfg i) m drawn).Inv :=
  { (h.drive cfg i).withMem hm with
    retRecorded := by
      have acc : s.statusRecord.holds (s.ret.getD .ok) := by
        cases ret : s.ret with
        | none => trivial
        | some st => exact h.retRecorded st ret
      rintro _ ⟨⟩
      exact StatusRecord.holds_accumulate (holds_note acc _) (note_holds _ _) }

end State.Inv

end Sys2Proof.Machine

namespace Sys2Proof.Claims

open Sys2Proof.Machine

/-- R21, R22: a turn of either loop keeps the invariant when the call's output region exists. -/
theorem Procedure.turn_inv (p : Procedure) {c : BufCall} {s : State} {i : Nat} (h : s.Inv) (hi : i < p.samples c)
    (exist : ∀ a, (p.output c).has a = true → a < 2 ^ s.plat.addrBits) : (p.turn c s i).Inv := by
  simp only [has_iff, inRegion] at exist
  cases p with
  | bufEnc => exact h.finishSample _ _ (h.within.write (exist _ ⟨by omega, Nat.add_lt_add_left hi _⟩) _) _
  | bufDec =>
    simp only [Procedure.output, Procedure.samples] at exist hi
    exact h.finishSample _ _ (h.within.write16 (exist _ ⟨by omega, by omega⟩) _ _) _

/-- A call of either procedure keeps the invariant: the caller owns the output region, so it exists (R25). -/
theorem Procedure.call_inv (p : Procedure) {c : BufCall} {s t : State} (h : s.Inv) (ran : p.call c s = .next t) : t.Inv := by
  rw [p.call_eq_guarded] at ran
  obtain ⟨_, _, _, ownsOut, _, exist, rfl⟩ := guarded_cases ran
  have outExists : ∀ a, (p.output c).has a = true → a < 2 ^ s.plat.addrBits :=
    fun a ha => lt_of_owns ((ownsRegion_iff s _).1 ownsOut a ha)
  refine (runSamples_induction (P := fun u => u.Inv ∧ u.plat = s.plat) _ ⟨h.start exist, rfl⟩ fun u i hi hu => ?_).1
  obtain ⟨inv, plat⟩ := hu
  exact ⟨p.turn_inv inv (List.mem_range.1 hi) (plat ▸ outExists), plat ▸ by cases p <;> rfl⟩

theorem runCmd_inv {c : HostCmd} {s t : State} (h : s.Inv) (ran : runCmd c s = .next t) : t.Inv := by
  cases c with
  | eval w => exact h.exec ran
  | chain d =>
    obtain ⟨_, _, evaluated⟩ := execChain_cases ran
    exact h.exec evaluated
  | readPorts => exact h.readPorts ran
  | readInFlight w =>
    obtain ⟨_, _, evaluated, read⟩ := execReadInFlight_cases ran
    exact (h.exec evaluated).readPorts read
  | store a b => exact h.store ran
  | own r => exact h.own ran
  | bufEnc c => exact Procedure.call_inv .bufEnc h ran
  | bufDec c => exact Procedure.call_inv .bufDec h ran

/-- Settles O42: a step is idle or carries out one action, and every action keeps the invariant. -/
theorem stepKeepsInv : Obligations.StepKeepsInv := by
  unfold Obligations.StepKeepsInv
  intro s t h stepped
  obtain ⟨_, rfl⟩ | ⟨c, rest, _, ran⟩ := step_cases stepped
  · exact h
  · exact runCmd_inv (h.withCmds rest) ran

/-- Settles O43: at reset nothing has been seen, held or owned, and the record is `CFG_DOC`. -/
theorem resetMeetsInv : Obligations.ResetMeetsInv := by
  unfold Obligations.ResetMeetsInv
  refine ⟨⟨by decide, rfl, ?_, ?_, ?_, ?_, ?_, ?_, ?_⟩, rfl, rfl, rfl, rfl⟩ <;> simp [State.reset]

/-- R88: every host action notes one status, OK being a status that leaves the record as it is. -/
theorem runCmd_notes {c : HostCmd} {s t : State} (ran : runCmd c s = .next t) :
    ∃ st, t.statusRecord = s.statusRecord.note st := by
  cases c with
  | eval w =>
    obtain ⟨_, rfl⟩ := exec_cases ran
    exact ⟨_, rfl⟩
  | chain d =>
    obtain ⟨_, _, evaluated⟩ := execChain_cases ran
    obtain ⟨_, rfl⟩ := exec_cases evaluated
    exact ⟨_, rfl⟩
  | readPorts =>
    obtain ⟨_, _, rfl⟩ := execReadPorts_cases ran
    exact ⟨.ok, rfl⟩
  | readInFlight w =>
    obtain ⟨_, _, evaluated, read⟩ := execReadInFlight_cases ran
    obtain ⟨_, rfl⟩ := exec_cases evaluated
    obtain ⟨_, _, rfl⟩ := execReadPorts_cases read
    exact ⟨_, rfl⟩
  | store a b =>
    obtain ⟨_, rfl⟩ := execStore_cases ran
    exact ⟨.ok, rfl⟩
  | own r =>
    obtain ⟨_, rfl⟩ := execOwn_cases ran
    exact ⟨.ok, rfl⟩
  | bufEnc c =>
    obtain ⟨_, _, _, _, _, _, rfl⟩ := guarded_cases ran
    exact ⟨_, (Procedure.loop_status .bufEnc c (.refl _) s).2⟩
  | bufDec c =>
    obtain ⟨_, _, _, _, _, _, rfl⟩ := guarded_cases ran
    exact ⟨_, (Procedure.loop_status .bufDec c (.refl _) s).2⟩

/-- Settles O37: a step notes at most one status in the record, and noting a status keeps those held. -/
theorem statusRecordIsSticky : Obligations.StatusRecordIsSticky := by
  unfold Obligations.StatusRecordIsSticky
  refine ⟨fun s t st stepped held => ?step, fun i s t ran => ?instruction⟩
  case step =>
    obtain ⟨_, rfl⟩ | ⟨c, rest, _, ran⟩ := step_cases stepped
    · exact held
    · obtain ⟨new, record⟩ := runCmd_notes ran
      rw [record]
      exact holds_note held new
  case instruction =>
    obtain ⟨_, rfl⟩ := exec_cases ran
    exact ⟨note_holds _ _, fun ok => by rw [drive_statusRecord, ok]; rfl⟩

end Sys2Proof.Claims

/-! PROOFS. What a step and an evaluation are (R8, R14, R34, R84, R87): the action carried out, its result, its frame, and the
constants it leaves alone (R10, R11, R95). -/

namespace Sys2Proof.Claims

open Sys2Proof.Machine

/-- R42: a number that a row of bits decodes is a transaction word, and the instruction is that word's. -/
theorem decode_of_decodeTableWord {nbits w : Nat} {i : Instr} (h : decodeTableWord nbits w = some i) :
    decode (BitVec.ofNat 19 (w % 2 ^ nbits)) = i := by
  unfold decodeTableWord decodeNat at h
  by_cases fits : w % 2 ^ nbits < 2 ^ 19
  · rw [if_pos fits] at h
    exact Option.some.inj h
  · rw [if_neg fits] at h
    cases h

/-- R34: with a transaction word presented, a step is `exec` of the instruction it decodes to. -/
theorem step_present (s : State) (w : TW) : step (s.present w) = exec (decode w) s :=
  step_cons (c := .eval w) (rest := s.cmds) rfl

/-- Settles O8: each action's meaning is `runCmd`'s arm for it. -/
theorem stepRunsDecodedInstruction : Obligations.StepRunsDecodedInstruction := by
  unfold Obligations.StepRunsDecodedInstruction
  refine ⟨fun s rest => ?actions, fun s nbits w i decodes => ?placed, fun s idle => ?idle⟩
  case actions =>
    exact ⟨fun _ => step_cons, fun _ => step_cons, step_cons, fun _ => step_cons, fun _ _ => step_cons, fun _ => step_cons,
      fun _ => step_cons, fun _ => step_cons⟩
  case placed =>
    rw [← decode_of_decodeTableWord decodes]
    exact step_present s _
  case idle =>
    split
    next hw => exact step_idle hw idle
    next hw => exact step_illFormed (Bool.eq_false_iff.2 hw)

/-- R78, R84: the reserved operation, in either format, and A-law's segment search raise ILLEGAL_OP. -/
theorem resultOf_reserved (cfg : Cfg) {w : TW}
    (reserved : twOperation w = .reserved ∨ twOperation w = .seg ∧ twFormat w = .alaw) :
    resultOf cfg (decode w) = .raised .illegalOp := by
  rw [decode, ← mkDesc_fields]
  obtain op | ⟨op, fmt⟩ := reserved
  · rw [op]
    cases twFormat w <;> rfl
  · rw [op, fmt]
    rfl

/-- Settles O9: the evaluation completes with `eval`'s result, which for a reserved descriptor is ILLEGAL_OP's word. -/
theorem everyTransactionWordRuns : Obligations.EveryTransactionWordRuns := by
  unfold Obligations.EveryTransactionWordRuns
  exact fun s w hw => ⟨⟨_, exec_next hw (decode w), rfl⟩,
    fun reserved => by rw [eval, resultOf_reserved s.cfg reserved, pack_illegalOp]⟩

/-- Settles O10: an instruction that completes has driven the ports and noted its status, and no more. -/
theorem evaluationFrame : Obligations.EvaluationFrame := by
  unfold Obligations.EvaluationFrame
  intro i s t ran
  obtain ⟨_, rfl⟩ := exec_cases ran
  exact ⟨rfl, fun _ => rfl⟩

/-- Settles O35: no action writes the constants or the open parameters. -/
theorem noStepWritesTheConstants : Obligations.NoStepWritesTheConstants := by
  unfold Obligations.NoStepWritesTheConstants
  intro s t stepped
  obtain ⟨cfg, plat⟩ := step_sameConstants stepped
  exact ⟨cfg, plat⟩

/-- Settles O34: the eight words of the ROM that reset leaves. -/
theorem segmentRomHoldsItsTable : Obligations.SegmentRomHoldsItsTable := by
  unfold Obligations.SegmentRomHoldsItsTable
  exact ⟨rfl, by decide⟩

section
variable {s : State} {w : TW} {v : RW} {d : Desc} {rest : List HostCmd} (hw : s.cfg.wf = true)
include hw

/-- R34: a step that evaluates a word drives its result. -/
theorem step_eval (pending : s.cmds = .eval w :: rest) :
    step s = .next (State.drive { s with cmds := rest } (resultOf s.cfg (decode w))) := by
  rw [step_cons pending]
  exact exec_next (s := { s with cmds := rest }) hw _

/-- R97: feeding on the `dout` of the ports' value evaluates the word built from it. -/
theorem execChain_next (ports : s.portValue = .ok v) :
    execChain d s = .next (s.drive (resultOf s.cfg (decode (mkTW d (rwDout v))))) := by
  rw [execChain, checked_of_wf hw, ports]
  exact exec_next hw _

/-- R97: so does the step that feeds it on, when R80 allows the result on the ports. -/
theorem step_chain (pending : s.cmds = .chain d :: rest) (out : s.out = some v) (legal : rwStatus v ≠ 0b11#2) :
    step s = .next (State.drive { s with cmds := rest } (resultOf s.cfg (decode (mkTW d (rwDout v))))) := by
  rw [step_cons pending]
  exact execChain_next (s := { s with cmds := rest }) hw (portValue_some out legal)

end

/-- Settles O41: the first step leaves a result R80 allows on the ports, so the second reads it and evaluates. -/
theorem resultFeedsTheNextTransaction : Obligations.ResultFeedsTheNextTransaction := by
  unfold Obligations.ResultFeedsTheNextTransaction
  exact fun s w d rest hw pending =>
    ⟨_, _, step_eval hw pending, step_chain hw rfl rfl (legalResult_resultOf _ _).1, rfl, rfl⟩

end Sys2Proof.Claims

/-! PROOFS. The host's own actions on its memory (R16, R25): a store, and coming to own a region. -/

namespace Sys2Proof.Claims

open Sys2Proof.Machine

section
variable {s : State} (hw : s.cfg.wf = true)
include hw

theorem execStore_next {a : Nat} (ha : a < 2 ^ s.plat.addrBits) (b : Byte) :
    execStore a b s = .next { s with mem := Memory.write s.mem a b } := by
  rw [execStore, checked_of_wf hw, if_pos ((addressExists_iff s a).2 ha)]

theorem execStore_fault {a : Nat} (ha : 2 ^ s.plat.addrBits ≤ a) (b : Byte) : execStore a b s = .fault .noSuchAddress := by
  rw [execStore, checked_of_wf hw, if_neg (by rw [addressExists_iff]; omega)]

theorem execOwn_next {r : Region} (hr : r.base + r.size ≤ 2 ^ s.plat.addrBits) :
    execOwn r s = .next { s with owned := r :: s.owned } := by
  rw [execOwn, checked_of_wf hw, if_pos hr]

theorem execOwn_fault {r : Region} (hr : 2 ^ s.plat.addrBits < r.base + r.size) : execOwn r s = .fault .noSuchAddress := by
  rw [execOwn, checked_of_wf hw, if_neg (by omega)]

end

/-- R25: one more owned region that exists adds its own bytes to those the caller owns. -/
theorem ownsByte_cons {s : State} {r : Region} (hr : r.base + r.size ≤ 2 ^ s.plat.addrBits) (a : Nat) :
    ownsByte { s with owned := r :: s.owned } a ↔ ownsByte s a ∨ inRegion r.base r.size a := by
  have existing : inRegion r.base r.size a → a < 2 ^ s.plat.addrBits := fun ⟨_, high⟩ => by omega
  simp only [ownsByte, List.exists_mem_cons_iff]
  rw [and_or_left, and_iff_right_of_imp existing, or_comm]

/-- Settles O44: memory after a store is the written one, and the address check decides between it and the fault. -/
theorem storeChangesOneByte : Obligations.StoreChangesOneByte := by
  unfold Obligations.StoreChangesOneByte
  exact fun s a b hw hm => ⟨fun ha => ⟨_, execStore_next hw ha b, rfl, Memory.wf_write hm a b, Memory.read_write hm a b⟩,
    fun ha => execStore_fault hw ha b⟩

/-- Settles O45: the region joins the owned ones, and the check of its end decides between that and the fault. -/
theorem owningARegion : Obligations.OwningARegion := by
  unfold Obligations.OwningARegion
  exact fun s r hw => ⟨fun hr => ⟨_, execOwn_next hw hr, rfl, ownsByte_cons hr⟩, execOwn_fault hw⟩

end Sys2Proof.Claims

/-! PROOFS. The latency and the attachment (R31, R99): every action of a reattached machine is the action, reattached. -/

namespace Sys2Proof.Claims

open Sys2Proof.Machine

@[simp] theorem mapNext_next (f : State → State) (t : State) : mapNext f (.next t) = .next (f t) := rfl
@[simp] theorem mapNext_fault (f : State → State) (x : Fault) : mapNext f (.fault x) = .fault x := rfl
@[simp] theorem mapNext_refused (f : State → State) (x : Refusal) : mapNext f (.refused x) = .refused x := rfl

section
variable (n : Nat) (a : Attach)

/-- R5: the check reads the constants only. -/
theorem checked_reattach (s : State) (o : Host.Outcome State Fault Refusal) :
    (reattach n a s).checked (mapNext (reattach n a) o) = mapNext (reattach n a) (s.checked o) := by
  cases hw : s.cfg.wf with
  | true => rw [checked_of_wf hw, checked_of_wf (s := reattach n a s) hw]
  | false => rw [checked_of_illFormed hw, checked_of_illFormed (s := reattach n a s) hw, mapNext_refused]

theorem exec_reattach (i : Instr) (s : State) : exec i (reattach n a s) = mapNext (reattach n a) (exec i s) := by
  rw [exec_eq_complete, exec_eq_complete, State.complete, State.complete, ← checked_reattach]
  rfl

theorem execReadPorts_reattach (s : State) :
    execReadPorts (reattach n a s) = mapNext (reattach n a) (execReadPorts s) := by
  rw [execReadPorts, execReadPorts, ← checked_reattach, show (reattach n a s).portValue = s.portValue from rfl]
  cases s.portValue <;> rfl

theorem execChain_reattach (d : Desc) (s : State) :
    execChain d (reattach n a s) = mapNext (reattach n a) (execChain d s) := by
  rw [execChain, execChain, ← checked_reattach, show (reattach n a s).portValue = s.portValue from rfl]
  cases s.portValue with
  | error f => rfl
  | ok w => exact congrArg _ (exec_reattach n a _ s)

/-- R94: a read in flight needs the two latencies to agree on being 0 (log entry 11). -/
theorem execReadInFlight_reattach (w : TW) (s : State) (agree : 0 < n ↔ 0 < s.plat.evalLatency) :
    execReadInFlight w (reattach n a s) = mapNext (reattach n a) (execReadInFlight w s) := by
  rw [execReadInFlight, execReadInFlight, ← checked_reattach, exec_reattach]
  congr 1
  by_cases latency : 0 < s.plat.evalLatency
  · rw [if_pos latency, if_pos (show 0 < (reattach n a s).plat.evalLatency from agree.2 latency), mapNext_fault]
  · rw [if_neg latency, if_neg (show ¬ 0 < (reattach n a s).plat.evalLatency from fun h => latency (agree.1 h))]
    cases exec (decode w) s with
    | next t => exact execReadPorts_reattach n a t
    | fault f => rfl
    | refused r => rfl

theorem execStore_reattach (x : Nat) (b : Byte) (s : State) :
    execStore x b (reattach n a s) = mapNext (reattach n a) (execStore x b s) := by
  rw [execStore, execStore, ← checked_reattach, apply_ite (mapNext _)]
  rfl

theorem execOwn_reattach (r : Region) (s : State) :
    execOwn r (reattach n a s) = mapNext (reattach n a) (execOwn r s) := by
  rw [execOwn, execOwn, ← checked_reattach, apply_ite (mapNext _)]
  rfl

/-- R21, R22: a call's loop does not read the latency or the attachment. -/
theorem Procedure.loop_reattach (p : Procedure) (c : BufCall) (order : List Nat) (s : State) :
    runSamples (p.turn c) order (reattach n a s) = reattach n a (runSamples (p.turn c) order s) :=
  List.foldl_hom (reattach n a) fun _ _ => by cases p <;> rfl

theorem Procedure.call_reattach (p : Procedure) (c : BufCall) (s : State) :
    p.call c (reattach n a s) = mapNext (reattach n a) (p.call c s) := by
  rw [p.call_eq_guarded, p.call_eq_guarded, BufCall.guarded, BufCall.guarded, ← checked_reattach]
  simp only [apply_ite (mapNext (reattach n a)), mapNext_next, mapNext_fault, mapNext_refused, ← p.loop_reattach]
  rfl

theorem runCmd_reattach (c : HostCmd) (s : State) (agree : ∀ w, c = .readInFlight w → (0 < n ↔ 0 < s.plat.evalLatency)) :
    runCmd c (reattach n a s) = mapNext (reattach n a) (runCmd c s) := by
  cases c with
  | eval w => exact exec_reattach n a _ s
  | chain d => exact execChain_reattach n a d s
  | readPorts => exact execReadPorts_reattach n a s
  | readInFlight w => exact execReadInFlight_reattach n a w s (agree w rfl)
  | store x b => exact execStore_reattach n a x b s
  | own r => exact execOwn_reattach n a r s
  | bufEnc c => exact Procedure.call_reattach n a .bufEnc c s
  | bufDec c => exact Procedure.call_reattach n a .bufDec c s

end

/-- Settles O39: a step checks the constants and carries out the next action, and both commute with reattaching. -/
theorem latencyAndAttachmentAreInvisible : Obligations.LatencyAndAttachmentAreInvisible := by
  unfold Obligations.LatencyAndAttachmentAreInvisible
  intro s n a agree
  cases hc : s.cmds with
  | nil =>
    have idle := checked_reattach n a s (.next s)
    rw [step, step, runNext, runNext, hc, show (reattach n a s).cmds = [] from hc]
    exact idle
  | cons c rest =>
    rw [step_cons hc, step_cons (s := reattach n a s) hc]
    exact runCmd_reattach n a c { s with cmds := rest } fun w e => agree w (by rw [hc, e]; rfl)

end Sys2Proof.Claims
